-- ==== Sys2Proof/Word.lean ====
section
/-! DEFINITION. The word types of the block (10_state.md R11 to R14, R18; 43_descriptor_encoder.md R110). -/

namespace Sys2Proof

/-- One byte: a character code, an attribute, a port datum, a byte of a command. -/
abbrev Byte := BitVec 8

/-- One character cell: character byte in bits 7:0, attribute byte in bits 15:8 (10_state.md R14). -/
abbrev CellWord := BitVec 16

end Sys2Proof
end

