-- ==== Sys2Proof/Machine/Flags.lean ====
section
/-! DEFINITION. The one condition the block detects. It has no stored flags and no condition codes
(10_state.md R15), so no operation computes any. -/

namespace Sys2Proof.Machine

/-- `OutOfBounds`: tested on the operands as given, before any arithmetic on them (60_exceptions.md R130). -/
abbrev OutOfBounds (row col : Nat) : Prop := 25 ≤ row ∨ 80 ≤ col

end Sys2Proof.Machine
end

