-- ==== Sys2Proof/Machine/Operands.lean ====
section
/-! DEFINITION. The values the operations compute from their operands: cells, attribute nibbles, cell indexes and
positions. Everything is unsigned (00_scope.md section 5). -/

namespace Sys2Proof.Machine

/-- The index of the cell at a row and a column (20_memory.md R30). -/
def cellIndex (row col : Nat) : Nat := row * 80 + col

/-- `{attr, byte}`: the cell with a character byte under an attribute (10_state.md R14). -/
def cellOf (attr byte : Byte) : CellWord := attr ++ byte

/-- A cell's character byte, bits 7:0 (10_state.md R14). -/
def charByte (v : CellWord) : Byte := v.extractLsb' 0 8

/-- A cell's attribute byte, bits 15:8 (10_state.md R14). -/
def attrByte (v : CellWord) : Byte := v.extractLsb' 8 8

/-- A cell is blank when its character byte is zero (41_display_position.md R92). -/
def isBlank (v : CellWord) : Bool := charByte v == 0#8

/-- `FG`: attribute bits 3:0 (10_state.md R13). -/
def foreground (attr : Byte) : BitVec 4 := attr.extractLsb' 0 4

/-- `BG`: attribute bits 6:4 (10_state.md R13). -/
def background (attr : Byte) : BitVec 3 := attr.extractLsb' 4 3

/-- `BLINK`: attribute bit 7 (10_state.md R13). -/
def blink (attr : Byte) : Bool := attr.getLsbD 7

/-- `{ATTR[7:4], color}` (40_display_cell_ops.md R76). -/
def withForeground (attr : Byte) (color : BitVec 4) : Byte := attr.extractLsb' 4 4 ++ color

/-- `{color, ATTR[3:0]}` (40_display_cell_ops.md R77). -/
def withBackground (attr : Byte) (color : BitVec 4) : Byte := color ++ attr.extractLsb' 0 4

/-- The successor of a position: next column, wrapping at 80 to the next row, which wraps at 25 to row 0. The row is
tested only when the column wrapped; `x` and `y` are temporaries of 7 and 5 bits (41_display_position.md R90). -/
def nextPosition (x : BitVec 7) (y : BitVec 5) : BitVec 7 × BitVec 5 :=
  if x + 1#7 = 80#7 then (0#7, if y + 1#5 = 25#5 then 0#5 else y + 1#5) else (x + 1#7, y)

/-- The linear offset of column `x` and row `y`, held in 16 bits (42_cursor_protocol.md R100). -/
def linearOffset (x y : Nat) : BitVec 16 := BitVec.ofNat 16 (y * 80 + x)

end Sys2Proof.Machine
end

