-- ==== Sys2Proof/Config.lean ====
section
/-! DEFINITION. The parameters of the platform (00_scope.md R6), fixed for one machine. A state carries them in its
field `cfg`, which no operation changes, so a statement about every state holds on every platform. -/

namespace Sys2Proof

/-- The parameters of 00_scope.md R6. -/
structure Config where
  /-- `VGA_BASE`: physical byte address of cell 0 of the display memory. -/
  vgaBase : Nat
  /-- `CRTC_INDEX`: port number of the CRT controller's register-select port. -/
  crtcIndex : BitVec 16
  /-- `DEFAULT_ATTR`: the attribute byte that `INIT` loads. -/
  defaultAttr : Byte
  /-- `GDT_ADDR`: byte address of the static descriptor table's image. -/
  gdtAddr : Nat
  deriving DecidableEq, Repr

/-- `CRTC_DATA`, the adjacent data port, is always `CRTC_INDEX + 1` (00_scope.md R6, 92_eei_decisions.md D8). -/
def Config.crtcData (c : Config) : BitVec 16 := c.crtcIndex + 1#16

/-- The defaults of 00_scope.md R6, supplied there from general knowledge (PRESUMED, log 5). The spec gives `GDT_ADDR`
no default and no rule reads it; 0 is the model's (DESIGN CHOICE, log 6). -/
def Config.default : Config where
  vgaBase := 0xB8000
  crtcIndex := 0x3D4#16
  defaultAttr := 0x0F#8
  gdtAddr := 0

/-- The constraints 00_scope.md R6 puts on the parameters: `VGA_BASE` even, `CRTC_INDEX` less than 0xFFFF,
bit 7 of `DEFAULT_ATTR` clear. (That the region does not wrap holds because an address is a natural, log 7.) -/
abbrev Config.WellFormed (c : Config) : Prop :=
  c.vgaBase % 2 = 0 ∧ c.crtcIndex.toNat < 0xFFFF ∧ c.defaultAttr.getLsbD 7 = false

end Sys2Proof
end

