-- ==== Sys2Proof/Syntax.lean ====
section
/-! DEFINITION. The fifteen operations of 30_encoding.md R50 on their abstract operands, the two ports the host
issues them through (R54), the 8-byte record they carry (43_descriptor_encoder.md R110), and the reasons a byte
sequence is no operation (R56). -/

namespace Sys2Proof

/-- An 8-byte segment-descriptor record; `d<k>` is the byte at byte offset k (43_descriptor_encoder.md R110). -/
structure Descriptor where
  d0 : Byte
  d1 : Byte
  d2 : Byte
  d3 : Byte
  d4 : Byte
  d5 : Byte
  d6 : Byte
  d7 : Byte
  deriving DecidableEq, Repr

/-- The two units, each with its own port: a word sent to one is never decoded by the other (30_encoding.md R54). -/
inductive Port where
  | display
  | descriptor
  deriving DecidableEq, Repr

/-- The operations of 30_encoding.md R50, in the order of its table. -/
inductive Instr where
  /-- `initialize()` (R70). -/
  | init
  /-- `write_char(byte)` (R71). -/
  | wrchar (byte : Byte)
  /-- `delete_char()` (R72). -/
  | delchar
  /-- `write_cell_at(row, col, byte)`, row first (R73). -/
  | wrcell (row col : Nat) (byte : Byte)
  /-- `write_bytes(sequence)` (R74). -/
  | wrbytes (sequence : List Byte)
  /-- `clear_screen()` (R75). -/
  | clear
  /-- `advance()` (R90). -/
  | advance
  /-- `retreat()` (R91). -/
  | retreat
  /-- `new_line()` (R93). -/
  | newline
  /-- `set_foreground(color)` (R76). -/
  | setfg (color : BitVec 4)
  /-- `set_background(color)` (R77). -/
  | setbg (color : BitVec 4)
  /-- `set_position(x, y)`, column first (R100). -/
  | setpos (x y : Nat)
  /-- `encode(base, limit, flags, access)` (R111). -/
  | encode (base : BitVec 32) (limit : BitVec 20) (flags : BitVec 4) (access : Byte)
  /-- `to_value()` of a record (R112). -/
  | tovalue (record : Descriptor)
  /-- `null_descriptor()` (R113). -/
  | nulldesc
  deriving DecidableEq, Repr

/-- Why bytes on a port are no operation (30_encoding.md R56). Each is safe: the model takes no step. -/
inductive DecodeError where
  /-- A display header whose `op` is 0xC to 0xF. -/
  | reservedOpcode
  /-- A display header whose `z` is not zero. -/
  | headerZNonZero
  /-- A display header with a non-zero value in operand bits its operation does not use. -/
  | unusedOperandNonZero
  /-- The display stream ends inside a header. -/
  | truncatedHeader
  /-- The display stream ends inside the payload of a `WRBYTES`. -/
  | truncatedPayload
  /-- A descriptor request whose `fn` is 0x3 to 0xF. -/
  | reservedFunction
  /-- A descriptor request whose `z` is not zero. -/
  | requestZNonZero
  /-- A `NULLDESC` request whose `arg` is not zero. -/
  | nullArgumentNonZero
  /-- The descriptor unit's stream ends inside a request. -/
  | truncatedRequest
  deriving DecidableEq, Repr

end Sys2Proof
end

