-- ==== Sys2Proof/Machine/Descriptor.lean ====
section
/-! DEFINITION. The descriptor record: its layout, its 64-bit value, its named constants and the static table
(43_descriptor_encoder.md R110 to R119). Pure bit-packing, no state. -/

namespace Sys2Proof.Machine

/-- `encode`: the record of four fields (43_descriptor_encoder.md R110, R111). -/
def packRecord (base : BitVec 32) (limit : BitVec 20) (flags : BitVec 4) (access : Byte) : Descriptor where
  d0 := limit.extractLsb' 0 8
  d1 := limit.extractLsb' 8 8
  d2 := base.extractLsb' 0 8
  d3 := base.extractLsb' 8 8
  d4 := base.extractLsb' 16 8
  d5 := access
  d6 := flags ++ limit.extractLsb' 16 4
  d7 := base.extractLsb' 24 8

/-- `to_value`: each byte widened to 64 bits, shifted to its place, combined with OR (43_descriptor_encoder.md R112). -/
def recordValue (d : Descriptor) : BitVec 64 :=
  d.d0.setWidth 64 ||| d.d1.setWidth 64 <<< 8 ||| d.d2.setWidth 64 <<< 16 ||| d.d3.setWidth 64 <<< 24
    ||| d.d4.setWidth 64 <<< 32 ||| d.d5.setWidth 64 <<< 40 ||| d.d6.setWidth 64 <<< 48
    ||| d.d7.setWidth 64 <<< 56

/-- `null_descriptor`: the all-zero record (43_descriptor_encoder.md R113). -/
def nullRecord : Descriptor := ⟨0#8, 0#8, 0#8, 0#8, 0#8, 0#8, 0#8, 0#8⟩

/-- The bytes of a record by ascending byte offset (43_descriptor_encoder.md R110, 20_memory.md R39). -/
def recordBytes (d : Descriptor) : List Byte := [d.d0, d.d1, d.d2, d.d3, d.d4, d.d5, d.d6, d.d7]

/-- The base field a record holds (43_descriptor_encoder.md R110). -/
def recordBase (d : Descriptor) : BitVec 32 := d.d7 ++ d.d4 ++ d.d3 ++ d.d2

/-- The limit field a record holds (43_descriptor_encoder.md R110). -/
def recordLimit (d : Descriptor) : BitVec 20 := d.d6.extractLsb' 0 4 ++ d.d1 ++ d.d0

/-- The flag nibble a record holds (43_descriptor_encoder.md R110). -/
def recordFlags (d : Descriptor) : BitVec 4 := d.d6.extractLsb' 4 4

/-- The access byte a record holds (43_descriptor_encoder.md R110). -/
def recordAccess (d : Descriptor) : Byte := d.d5

/-- Flag nibble "flat-32-bit-page-granular" (43_descriptor_encoder.md R116). -/
def flat32 : BitVec 4 := 0xC#4

/-- Access byte "kernel-code-segment" (43_descriptor_encoder.md R116). -/
def kernelCode : Byte := 0x9A#8

/-- "the equivalent data-segment access byte" (43_descriptor_encoder.md R116). -/
def kernelData : Byte := 0x92#8

/-- Access bit P: segment present (43_descriptor_encoder.md R114, orientation only). -/
def accessPresent (access : Byte) : Bool := access.getLsbD 7

/-- Access field DPL: privilege level (43_descriptor_encoder.md R114, orientation only). -/
def accessPrivilege (access : Byte) : BitVec 2 := access.extractLsb' 5 2

/-- Access bit S: code or data segment (43_descriptor_encoder.md R114, orientation only). -/
def accessCodeOrData (access : Byte) : Bool := access.getLsbD 4

/-- Access bit E: executable (43_descriptor_encoder.md R114, orientation only). -/
def accessExecutable (access : Byte) : Bool := access.getLsbD 3

/-- Access bit DC: conforming or expand-down (43_descriptor_encoder.md R114, orientation only). -/
def accessConforming (access : Byte) : Bool := access.getLsbD 2

/-- Access bit RW: readable or writable (43_descriptor_encoder.md R114, orientation only). -/
def accessReadWrite (access : Byte) : Bool := access.getLsbD 1

/-- Access bit A: accessed (43_descriptor_encoder.md R114, orientation only). -/
def accessAccessed (access : Byte) : Bool := access.getLsbD 0

/-- Flag bit G: the limit counts 4 KiB pages (43_descriptor_encoder.md R115, orientation only). -/
def flagGranularity (flags : BitVec 4) : Bool := flags.getLsbD 3

/-- Flag bit D/B: 32-bit segment (43_descriptor_encoder.md R115, orientation only). -/
def flagDefaultSize (flags : BitVec 4) : Bool := flags.getLsbD 2

/-- Flag bit L: 64-bit code segment (43_descriptor_encoder.md R115, orientation only). -/
def flagLong (flags : BitVec 4) : Bool := flags.getLsbD 1

/-- Flag bit AVL: available to software (43_descriptor_encoder.md R115, orientation only). -/
def flagAvailable (flags : BitVec 4) : Bool := flags.getLsbD 0

/-- The static table, "pre-encoded": null, flat kernel code, flat kernel data (10_state.md R21,
43_descriptor_encoder.md R117, R118). -/
def staticTable : List Descriptor :=
  [⟨0x00#8, 0x00#8, 0x00#8, 0x00#8, 0x00#8, 0x00#8, 0x00#8, 0x00#8⟩,
    ⟨0xFF#8, 0xFF#8, 0x00#8, 0x00#8, 0x00#8, 0x9A#8, 0xCF#8, 0x00#8⟩,
    ⟨0xFF#8, 0xFF#8, 0x00#8, 0x00#8, 0x00#8, 0x92#8, 0xCF#8, 0x00#8⟩]

/-- The table's image: its bytes by ascending address from `GDT_ADDR` (20_memory.md R39). -/
def tableImage (table : List Descriptor) : List Byte := table.flatMap recordBytes

end Sys2Proof.Machine
end

