-- ==== Sys2Proof/Machine/State.lean ====
section
/-! DEFINITION. The state of the machine (10_state.md) as plain data, the reasons a step stops, and the state at
launch and at reset. -/

namespace Sys2Proof.Machine

/-- Bytes by address: addresses strictly rising, no entry equal to what an unlisted address reads as
(`Sys2Proof.Machine.Mem.wf`). Used for the display memory by byte address, and for `CRTC_REG` by register index. -/
abbrev Mem := List Host.Cell

/-- One access of the block to display memory or to a port (00_scope.md R7). -/
inductive Event where
  /-- `W(i, v)`: `CellWrite(i, v)`. -/
  | cellWrite (i : Nat) (v : CellWord)
  /-- `R(i)`: `CellRead(i)`. -/
  | cellRead (i : Nat)
  /-- `P(p, b)`: `PortWrite(p, b)`. -/
  | portWrite (p : BitVec 16) (b : Byte)
  deriving DecidableEq, Repr

/-- What an operation returns to the host (30_encoding.md R55). -/
inductive Result where
  /-- The operation returns nothing. -/
  | nothing
  /-- `WRCELL`'s one bit: 1 when out of bounds (60_exceptions.md R130). -/
  | oob (bit : Bool)
  /-- The 8-byte record of `ENCODE` and `NULLDESC`. -/
  | record (d : Descriptor)
  /-- The 64-bit value of `TOVALUE`. -/
  | value (v : BitVec 64)
  deriving DecidableEq, Repr

/-- Why the machine stops with a fault. -/
inductive Fault where
  /-- `RETREAT` or `DELCHAR` would read a cell beyond index 1999, which does not exist (20_memory.md R30). Safe: only
  a state that breaks 10_state.md R16 gets there (DESIGN CHOICE, log 13). -/
  | cellOutsideDisplay
  deriving DecidableEq, Repr

/-- Why a step has no meaning. -/
inductive Refusal where
  /-- An instruction without a meaning; no arm of `exec` answers it. Safe. -/
  | notModelled (mnemonic : String)
  /-- The host issued a display operation other than `INIT` and `SETPOS` before `INIT` has completed: 60_exceptions.md R137
  has a model refuse it and give it no step. Safe. -/
  | beforeInit
  /-- The bytes the host put on a port are no operation (30_encoding.md R56, 60_exceptions.md R137). Safe. -/
  | badEncoding (e : DecodeError)
  /-- The host's operation sequence has ended, and with it the run (92_eei_decisions.md D31; DESIGN CHOICE, log 1).
  Safe. -/
  | endOfRun
  deriving DecidableEq, Repr

/-- The state: the block's registers, the devices it drives, its constant table, the platform's parameters, the
host's pending operations, and what the block has shown to the outside. -/
structure State where
  /-- The platform's parameters (00_scope.md R6); no operation changes them. -/
  cfg : Config
  /-- `X`, the current column (10_state.md R11). -/
  x : BitVec 7
  /-- `Y`, the current row (10_state.md R12). -/
  y : BitVec 5
  /-- `ATTR`, the current colour attribute (10_state.md R13). -/
  attr : Byte
  /-- Whether `INIT` has completed, that is whether the time that 10_state.md R25 treats as reset is over; until then a
  model refuses every other display operation but `SETPOS` (60_exceptions.md R137). -/
  initDone : Bool
  /-- The display memory by byte address (10_state.md R17, 20_memory.md R30). -/
  mem : Mem
  /-- `CRTC_IDX`, the CRT controller's index latch (10_state.md R18). -/
  crtcIdx : Byte
  /-- `CRTC_REG`, the CRT controller's registers by index 0 to 255 (10_state.md R18). -/
  crtcReg : Mem
  /-- The static descriptor table, read-only (10_state.md R21). -/
  gdt : List Descriptor
  /-- `GDT_LEN`, the exported length (43_descriptor_encoder.md R119). The spec leaves the width of this datum open; a natural
  has none (DESIGN CHOICE, log 20). -/
  gdtLen : Nat
  /-- The port the host uses for each operation still to come, in order (00_scope.md R8; log 1). -/
  turns : List Port
  /-- The bytes still to come on the display unit's port (30_encoding.md R51). -/
  displayIn : List Byte
  /-- The bytes still to come on the descriptor unit's port (30_encoding.md R54). -/
  requestIn : List Byte
  /-- What the last completed operation returned to the host (30_encoding.md R55; log 10). -/
  result : Result
  /-- The event history, newest first (00_scope.md R7; log 11). -/
  log : List Event
  deriving DecidableEq, Repr

/-- The event history, oldest first (00_scope.md R7). -/
def State.events (s : State) : List Event := s.log.reverse

/-- The state before `INIT` (10_state.md R25, 70_reset_and_hazards.md R150) on a platform whose display memory, index
latch and CRT controller registers hold the given launch contents. The three registers, to which the spec gives no value
here, hold the given values (DESIGN CHOICE, log 2), and `INIT` has not completed. -/
def State.launch (cfg : Config) (x : BitVec 7) (y : BitVec 5) (attr : Byte) (mem : Mem) (crtcIdx : Byte)
    (crtcReg : Mem) : State where
  cfg := cfg
  x := x
  y := y
  attr := attr
  initDone := false
  mem := mem
  crtcIdx := crtcIdx
  crtcReg := crtcReg
  gdt := staticTable
  gdtLen := 3
  turns := []
  displayIn := []
  requestIn := []
  result := .nothing
  log := []

/-- The state at reset on the default platform: the registers hold 0 and the devices the launch contents the log names
(DESIGN CHOICE, log 2, log 3 and log 4). -/
def State.reset : State := State.launch Config.default 0#7 0#5 0#8 [] 0#8 []

end Sys2Proof.Machine
end

