-- ==== Sys2Proof/Machine/Ops.lean ====
section
/-! DEFINITION. The named operations over memory, ports and registers, and the steps the display operations share
(20_memory.md, 40_display_cell_ops.md, 41_display_position.md, 42_cursor_protocol.md). The block has no trap, so there
is no exception to take and none to return from (60_exceptions.md R135, R136). -/

namespace Sys2Proof.Machine

/-! ### Bytes by address -/

/-- What an unlisted address reads as: the spec leaves launch contents unspecified (10_state.md R25), so the model
lists every other byte and fixes this one (DESIGN CHOICE, log 3 and log 4). -/
def unlisted (_addr : Nat) : Byte := 0#8

/-- The byte at an address. -/
def Mem.read : Mem → Nat → Byte
  | [], a => unlisted a
  | (k, v) :: m, a => if k = a then v else Mem.read m a

/-- The memory with one byte written, in canonical form: writing what an unlisted address reads as removes the entry. -/
def Mem.write : Mem → Nat → Byte → Mem
  | [], a, v => if v = unlisted a then [] else [(a, v)]
  | (k, w) :: m, a, v =>
    if a < k then
      if v = unlisted a then (k, w) :: m else (a, v) :: (k, w) :: m
    else if a = k then
      if v = unlisted a then m else (a, v) :: m
    else (k, w) :: Mem.write m a v

/-- The canonical form: addresses strictly rising, no entry equal to what an unlisted address reads as. -/
abbrev Mem.wf (m : Mem) : Prop := m.Pairwise (fun c d => c.1 < d.1) ∧ ∀ c ∈ m, c.2 ≠ unlisted c.1

/-- Every listed address lies in the window of `size` addresses from `base`. -/
abbrev Mem.within (m : Mem) (base size : Nat) : Prop := ∀ c ∈ m, base ≤ c.1 ∧ c.1 < base + size

/-! ### Display memory -/

/-- The byte address of cell `i` (20_memory.md R30). -/
def cellAddr (cfg : Config) (i : Nat) : Nat := cfg.vgaBase + 2 * i

/-- `VRAM[i]`: the 16-bit content of cell `i`, little-endian (20_memory.md R30, R32). -/
def State.cell (s : State) (i : Nat) : CellWord :=
  Mem.read s.mem (cellAddr s.cfg i + 1) ++ Mem.read s.mem (cellAddr s.cfg i)

/-- The state with one more event in its history (00_scope.md R7). -/
def State.record (s : State) (e : Event) : State := { s with log := e :: s.log }

/-- `MemWrite(a, 2, v)`: one 16-bit little-endian write, the character byte at the lower address
(20_memory.md R32, R33). -/
def storeCell (m : Mem) (a : Nat) (v : CellWord) : Mem := Mem.write (Mem.write m a (charByte v)) (a + 1) (attrByte v)

/-- `CellWrite(i, v)` (20_memory.md R30). -/
def cellWrite (i : Nat) (v : CellWord) (s : State) : State :=
  { s with mem := storeCell s.mem (cellAddr s.cfg i) v, log := .cellWrite i v :: s.log }

/-- The byte of the static table's image at an address, if the address lies in it (20_memory.md R39). -/
def State.tableByte (s : State) (a : Nat) : Option Byte :=
  if s.cfg.gdtAddr ≤ a then (tableImage s.gdt)[a - s.cfg.gdtAddr]? else none

/-! ### CRT controller ports -/

/-- The two ports of the CRT controller; the block writes no other port (20_memory.md R36, 42_cursor_protocol.md R101). -/
inductive CrtPort where
  | index
  | data
  deriving DecidableEq, Repr

/-- The number of a port (00_scope.md R6). -/
def CrtPort.number (cfg : Config) : CrtPort → BitVec 16
  | .index => cfg.crtcIndex
  | .data => cfg.crtcData

/-- `PortWrite(p, b)`: the index port sets the latch, the data port writes the register the latch selects
(10_state.md R18, 20_memory.md R37, R38). -/
def portWrite (p : CrtPort) (b : Byte) (s : State) : State :=
  match p with
  | .index => { s with crtcIdx := b, log := .portWrite (CrtPort.number s.cfg .index) b :: s.log }
  | .data =>
    { s with
      crtcReg := Mem.write s.crtcReg s.crtcIdx.toNat b
      log := .portWrite (CrtPort.number s.cfg .data) b :: s.log }

/-- `HWCURSOR`: the cursor-location registers, high byte 0x0E, low byte 0x0F (10_state.md R19). -/
def State.hwCursor (s : State) : BitVec 16 := Mem.read s.crtcReg 0x0E ++ Mem.read s.crtcReg 0x0F

/-- The four port writes of a push of a linear offset: low byte first (42_cursor_protocol.md R100, R101). -/
def pushOffset (off : BitVec 16) (s : State) : State :=
  portWrite .data (off.extractLsb' 8 8) (portWrite .index 0x0E#8
    (portWrite .data (off.extractLsb' 0 8) (portWrite .index 0x0F#8 s)))

/-- `set_position(x, y)`: silent when out of bounds, else a push (42_cursor_protocol.md R100). -/
def setPosition (x y : Nat) (s : State) : State :=
  if OutOfBounds y x then s else pushOffset (linearOffset x y) s

/-! ### The steps the display operations share -/

/-- `write_cell_at(row, col, byte)`: its `oob` result and the state after it (40_display_cell_ops.md R73). -/
def writeCellAt (row col : Nat) (byte : Byte) (s : State) : Bool × State :=
  if OutOfBounds row col then (true, s)
  else (false, cellWrite (cellIndex row col) (cellOf s.attr byte) s)

/-- `advance()` (41_display_position.md R90). -/
def advance (s : State) : State :=
  setPosition (nextPosition s.x s.y).1.toNat (nextPosition s.x s.y).2.toNat
    { s with x := (nextPosition s.x s.y).1, y := (nextPosition s.x s.y).2 }

/-- The row scan over the `n` leftmost columns of row `r`, from the right: the column of the first non-blank cell, or
0, and the state with the reads recorded (41_display_position.md R92). -/
def scanRow (r : Nat) : Nat → State → Nat × State
  | 0, s => (0, s)
  | c + 1, s =>
    if isBlank (s.cell (cellIndex r c)) then scanRow r c (s.record (.cellRead (cellIndex r c)))
    else (c, s.record (.cellRead (cellIndex r c)))

/-- `last_nonblank_column(r)` (41_display_position.md R92). A row past the last has no cells, and its first read,
column 79, would leave the display memory (log 13). -/
def lastNonblankColumn (r : Nat) (s : State) : Except Fault (Nat × State) :=
  if r < 25 then .ok (scanRow r 80 s) else .error .cellOutsideDisplay

/-- `retreat()`: a total no-op at (0, 0) (41_display_position.md R91, 90_conflicts.md C8; log 17). -/
def retreat (s : State) : Except Fault State :=
  if s.x = 0#7 ∧ s.y = 0#5 then .ok s
  else if s.x = 0#7 then
    match lastNonblankColumn (s.y - 1#5).toNat s with
    | .error f => .error f
    | .ok (c, s') => .ok (setPosition c (s.y - 1#5).toNat { s' with x := BitVec.ofNat 7 c, y := s.y - 1#5 })
  else .ok (setPosition (s.x - 1#7).toNat s.y.toNat { s with x := s.x - 1#7 })

/-- `write_char(byte)`: the cell first, then the move (40_display_cell_ops.md R71). -/
def writeChar (byte : Byte) (s : State) : State := advance (writeCellAt s.y.toNat s.x.toNat byte s).2

/-- `write_bytes(sequence)`: up to the first zero byte or the end (40_display_cell_ops.md R74). -/
def writeBytes : List Byte → State → State
  | [], s => s
  | b :: bs, s => if b = 0#8 then s else writeBytes bs (writeChar b s)

/-- The (row, column) pairs of the grid in row-major ascending order (40_display_cell_ops.md R75). -/
def gridCells : List (Nat × Nat) :=
  (List.range 25).flatMap fun r => (List.range 80).map fun c => (r, c)

/-- `clear_screen()` as 40_display_cell_ops.md R75 writes it: `write_cell_at(r, c, 0)` for every pair in order. -/
def clearLoop (s : State) : State :=
  gridCells.foldl (fun t rc => (writeCellAt rc.1 rc.2 0#8 t).2) s

/-- The bytes of the grid with one value in every cell, by ascending address, without those an unlisted address reads as. -/
def gridBytes (cfg : Config) (v : CellWord) : Mem :=
  (gridCells.flatMap fun rc =>
    [(cellAddr cfg (cellIndex rc.1 rc.2), charByte v), (cellAddr cfg (cellIndex rc.1 rc.2) + 1, attrByte v)]).filter
      fun c => c.2 ≠ unlisted c.1

/-- `clear_screen()` (40_display_cell_ops.md R75): the events in R75's order, and the memory with the grid's bytes put in
place of the display memory, which is quick to evaluate. It is the loop `clearLoop` on every memory in canonical form
(`clearScreen_eq_clearLoop`; DESIGN CHOICE, log 19). -/
def clearScreen (s : State) : State :=
  { s with
    mem := s.mem.filter (fun c => c.1 < s.cfg.vgaBase) ++
      (gridBytes s.cfg (cellOf s.attr 0#8) ++ s.mem.filter fun c => s.cfg.vgaBase + 4000 ≤ c.1)
    log := gridCells.foldl (fun l rc => .cellWrite (cellIndex rc.1 rc.2) (cellOf s.attr 0#8) :: l) s.log }

/-- `advance()` repeated until the row is no longer `y0`, at most `n` times (41_display_position.md R93). -/
def advanceUntilRowChanges (y0 : BitVec 5) : Nat → State → State
  | 0, s => s
  | n + 1, s => if (advance s).y = y0 then advanceUntilRowChanges y0 n (advance s) else advance s

/-- `new_line()` (41_display_position.md R93). In range the row changes after at most 80 advances; 128, the number of
7-bit columns, is enough for every state (DEDUCED, log 14). -/
def newLine (s : State) : State := advanceUntilRowChanges s.y 128 s

/-! ### How an operation ends -/

/-- A display operation other than `INIT` and `SETPOS`: the model gives it a step once `INIT` has completed and refuses it
before (10_state.md R25, 60_exceptions.md R137, 70_reset_and_hazards.md R151, 93_implementation_defined.md U1). -/
def afterInit (s : State) (k : Host.Outcome State Fault Refusal) : Host.Outcome State Fault Refusal :=
  if s.initDone then k else .refused .beforeInit

/-- The operation completes and returns `r` to the host (30_encoding.md R55). -/
def complete (r : Result) (s : State) : Host.Outcome State Fault Refusal := .next { s with result := r }

end Sys2Proof.Machine
end

