-- ==== Sys2Proof/Machine/CursorProtocol.lean ====
section
/-! DEFINITION. The meaning of the cursor-protocol operation (42_cursor_protocol.md). -/

namespace Sys2Proof.Machine

/-- `SETPOS x, y`: reads and writes no register of the display unit, so it is legal before `INIT`
(42_cursor_protocol.md R100, 60_exceptions.md R137). -/
def execSetpos (x y : Nat) (s : State) : Host.Outcome State Fault Refusal :=
  complete .nothing (setPosition x y s)

end Sys2Proof.Machine
end

