-- ==== Sys2Proof/Machine/DescriptorUnit.lean ====
section
/-! DEFINITION. The meanings of the descriptor unit's functions (43_descriptor_encoder.md). They read and write no
state of the display unit and need no `INIT` (10_state.md R25, 70_reset_and_hazards.md R151). -/

namespace Sys2Proof.Machine

/-- `ENCODE base, limit, flags, access` (43_descriptor_encoder.md R111). -/
def execEncode (base : BitVec 32) (limit : BitVec 20) (flags : BitVec 4) (access : Byte) (s : State) :
    Host.Outcome State Fault Refusal :=
  complete (.record (packRecord base limit flags access)) s

/-- `TOVALUE d` (43_descriptor_encoder.md R112). -/
def execTovalue (record : Descriptor) (s : State) : Host.Outcome State Fault Refusal :=
  complete (.value (recordValue record)) s

/-- `NULLDESC` (43_descriptor_encoder.md R113). -/
def execNulldesc (s : State) : Host.Outcome State Fault Refusal := complete (.record nullRecord) s

end Sys2Proof.Machine
end

