-- ==== Sys2Proof/Machine/DisplayCell.lean ====
section
/-! DEFINITION. The meanings of the cell and attribute operations (40_display_cell_ops.md). Each but `INIT` runs once `INIT`
has completed (60_exceptions.md R137). -/

namespace Sys2Proof.Machine

/-- `INIT`: reads no register; writes all three, then pushes (0, 0) (40_display_cell_ops.md R70). -/
def execInit (s : State) : Host.Outcome State Fault Refusal :=
  complete .nothing (setPosition 0 0 { s with x := 0#7, y := 0#5, attr := s.cfg.defaultAttr, initDone := true })

/-- `WRCHAR byte` (40_display_cell_ops.md R71). -/
def execWrchar (byte : Byte) (s : State) : Host.Outcome State Fault Refusal :=
  afterInit s (complete .nothing (writeChar byte s))

/-- `DELCHAR`: retreat, then blank the cell at the new position (40_display_cell_ops.md R72). -/
def execDelchar (s : State) : Host.Outcome State Fault Refusal :=
  afterInit s <|
    match retreat s with
    | .error f => .fault f
    | .ok t => complete .nothing (writeCellAt t.y.toNat t.x.toNat 0#8 t).2

/-- `WRCELL row, col, byte` returns `oob` (40_display_cell_ops.md R73, 60_exceptions.md R130). -/
def execWrcell (row col : Nat) (byte : Byte) (s : State) : Host.Outcome State Fault Refusal :=
  afterInit s (complete (.oob (writeCellAt row col byte s).1) (writeCellAt row col byte s).2)

/-- `WRBYTES sequence` (40_display_cell_ops.md R74). -/
def execWrbytes (sequence : List Byte) (s : State) : Host.Outcome State Fault Refusal :=
  afterInit s (complete .nothing (writeBytes sequence s))

/-- `CLEAR` (40_display_cell_ops.md R75). -/
def execClear (s : State) : Host.Outcome State Fault Refusal :=
  afterInit s (complete .nothing (clearScreen s))

/-- `SETFG color` (40_display_cell_ops.md R76). -/
def execSetfg (color : BitVec 4) (s : State) : Host.Outcome State Fault Refusal :=
  afterInit s (complete .nothing { s with attr := withForeground s.attr color })

/-- `SETBG color`: all four bits are stored, bit 7 included (40_display_cell_ops.md R77). -/
def execSetbg (color : BitVec 4) (s : State) : Host.Outcome State Fault Refusal :=
  afterInit s (complete .nothing { s with attr := withBackground s.attr color })

end Sys2Proof.Machine
end

