-- ==== Sys2Proof/Machine/DisplayPosition.lean ====
section
/-! DEFINITION. The meanings of the position operations (41_display_position.md). Each runs once `INIT` has completed
(60_exceptions.md R137). -/

namespace Sys2Proof.Machine

/-- `ADVANCE` (41_display_position.md R90). -/
def execAdvance (s : State) : Host.Outcome State Fault Refusal :=
  afterInit s (complete .nothing (advance s))

/-- `RETREAT` (41_display_position.md R91). -/
def execRetreat (s : State) : Host.Outcome State Fault Refusal :=
  afterInit s <|
    match retreat s with
    | .error f => .fault f
    | .ok t => complete .nothing t

/-- `NEWLINE` (41_display_position.md R93). -/
def execNewline (s : State) : Host.Outcome State Fault Refusal :=
  afterInit s (complete .nothing (newLine s))

end Sys2Proof.Machine
end

