-- ==== Sys2Proof/Machine/Dispatch.lean ====
section
/-! DEFINITION. One arm per operation of 30_encoding.md R50, each one call of its meaning. -/

namespace Sys2Proof.Machine

def exec (i : Instr) (s : State) : Host.Outcome State Fault Refusal :=
  match i with
  | .init => Sys2Proof.Machine.execInit s
  | .wrchar byte => Sys2Proof.Machine.execWrchar byte s
  | .delchar => Sys2Proof.Machine.execDelchar s
  | .wrcell row col byte => Sys2Proof.Machine.execWrcell row col byte s
  | .wrbytes sequence => Sys2Proof.Machine.execWrbytes sequence s
  | .clear => Sys2Proof.Machine.execClear s
  | .advance => Sys2Proof.Machine.execAdvance s
  | .retreat => Sys2Proof.Machine.execRetreat s
  | .newline => Sys2Proof.Machine.execNewline s
  | .setfg color => Sys2Proof.Machine.execSetfg color s
  | .setbg color => Sys2Proof.Machine.execSetbg color s
  | .setpos x y => Sys2Proof.Machine.execSetpos x y s
  | .encode base limit flags access => Sys2Proof.Machine.execEncode base limit flags access s
  | .tovalue record => Sys2Proof.Machine.execTovalue record s
  | .nulldesc => Sys2Proof.Machine.execNulldesc s

end Sys2Proof.Machine
end

