-- ==== Sys2Proof/WellFormed.lean ====
section
/-! DEFINITION. Which operations the transport can carry. The semantics is on the abstract operands of
30_encoding.md R50; the transport has 8 bits for each coordinate (R52, 92_eei_decisions.md D5) and 16 bits for the
length of a sequence (R53, D3). Every other operand has exactly its transport width. -/

namespace Sys2Proof

/-- The operation has a command word (30_encoding.md R52, R53, R54). -/
def Instr.WellFormed : Instr → Bool
  | .init => true
  | .wrchar _ => true
  | .delchar => true
  | .wrcell row col _ => row < 256 && col < 256
  | .wrbytes sequence => sequence.length < 65536
  | .clear => true
  | .advance => true
  | .retreat => true
  | .newline => true
  | .setfg _ => true
  | .setbg _ => true
  | .setpos x y => x < 256 && y < 256
  | .encode _ _ _ _ => true
  | .tovalue _ => true
  | .nulldesc => true

end Sys2Proof
end

