-- ==== Sys2Proof/Decode.lean ====
section
/-! DEFINITION. The decoder of the two ports (30_encoding.md R51 to R54, R56), the encoder, the opcode table as
masks and matches, and the source syntax of an operation (R57). -/

namespace Sys2Proof

/-- The upper nibble of the byte that ends a header or a request: `op` or `fn` (30_encoding.md R51, R54). -/
def opOf (h : Byte) : BitVec 4 := h.extractLsb' 4 4

/-- The lower nibble of that byte: `z` (30_encoding.md R51, R54). -/
def zOf (h : Byte) : BitVec 4 := h.extractLsb' 0 4

/-- The 16-bit byte count `{a, b}` of a `WRBYTES` header (30_encoding.md R52). -/
def lenOf (a b : Byte) : Nat := a.toNat * 256 + b.toNat

/-- An operation without operands: `a`, `b` and `c` must be zero (30_encoding.md R52, R56). -/
def noOperand (a b c : Byte) (i : Instr) (rest : List Byte) : Except DecodeError (Instr × List Byte) :=
  if a = 0#8 ∧ b = 0#8 ∧ c = 0#8 then .ok (i, rest) else .error .unusedOperandNonZero

/-- A colour operand: `a`, `b` and `c[7:4]` must be zero (30_encoding.md R52, R56). -/
def colorOperand (a b c : Byte) (i : BitVec 4 → Instr) (rest : List Byte) :
    Except DecodeError (Instr × List Byte) :=
  if a = 0#8 ∧ b = 0#8 ∧ c.extractLsb' 4 4 = 0#4 then .ok (i (c.extractLsb' 0 4), rest)
  else .error .unusedOperandNonZero

/-- The `WRBYTES` payload: exactly `lenOf a b` bytes after the header, all consumed (30_encoding.md R53). -/
def payloadOperand (a b c : Byte) (rest : List Byte) : Except DecodeError (Instr × List Byte) :=
  if c = 0#8 then
    if lenOf a b ≤ rest.length then .ok (.wrbytes (rest.take (lenOf a b)), rest.drop (lenOf a b))
    else .error .truncatedPayload
  else .error .unusedOperandNonZero

/-- The operation of a display header by its operation code, and what follows it (30_encoding.md R52). -/
def decodeHeader (op : Nat) (a b c : Byte) (rest : List Byte) : Except DecodeError (Instr × List Byte) :=
  match op with
  | 0x0 => noOperand a b c .init rest
  | 0x1 => if a = 0#8 ∧ b = 0#8 then .ok (.wrchar c, rest) else .error .unusedOperandNonZero
  | 0x2 => noOperand a b c .delchar rest
  | 0x3 => .ok (.wrcell a.toNat b.toNat c, rest)
  | 0x4 => payloadOperand a b c rest
  | 0x5 => noOperand a b c .clear rest
  | 0x6 => noOperand a b c .advance rest
  | 0x7 => noOperand a b c .retreat rest
  | 0x8 => noOperand a b c .newline rest
  | 0x9 => colorOperand a b c .setfg rest
  | 0xA => colorOperand a b c .setbg rest
  | 0xB => if c = 0#8 then .ok (.setpos a.toNat b.toNat, rest) else .error .unusedOperandNonZero
  | _ => .error .reservedOpcode

/-- One command from the head of the display unit's stream, and the rest of the stream. The header's bytes come
least significant first: `c`, `b`, `a`, then the byte holding `op` and `z` (30_encoding.md R51, R52, R53). -/
def decodeDisplay : List Byte → Except DecodeError (Instr × List Byte)
  | c :: b :: a :: h :: rest =>
    if zOf h = 0#4 then decodeHeader (opOf h).toNat a b c rest else .error .headerZNonZero
  | _ => .error .truncatedHeader

/-- One request from the head of the descriptor unit's stream: nine bytes, least significant first; bytes 0 to 7 are
`arg`, byte 8 is `{fn, z}` (30_encoding.md R54). -/
def decodeRequest : List Byte → Except DecodeError (Instr × List Byte)
  | q0 :: q1 :: q2 :: q3 :: q4 :: q5 :: q6 :: q7 :: h :: rest =>
    if zOf h = 0#4 then
      match (opOf h).toNat with
      | 0x0 =>
        if q0 = 0#8 ∧ q1 = 0#8 ∧ q2 = 0#8 ∧ q3 = 0#8 ∧ q4 = 0#8 ∧ q5 = 0#8 ∧ q6 = 0#8 ∧ q7 = 0#8 then
          .ok (.nulldesc, rest)
        else .error .nullArgumentNonZero
      | 0x1 =>
        .ok (.encode (q3 ++ q2 ++ q1 ++ q0) (q6.extractLsb' 0 4 ++ q5 ++ q4) (q6.extractLsb' 4 4) q7, rest)
      | 0x2 => .ok (.tovalue ⟨q0, q1, q2, q3, q4, q5, q6, q7⟩, rest)
      | _ => .error .reservedFunction
    else .error .requestZNonZero
  | _ => .error .truncatedRequest

/-- One operation from the head of a port's stream; neither port decodes the other's words (30_encoding.md R54). -/
def decode : Port → List Byte → Except DecodeError (Instr × List Byte)
  | .display, bytes => decodeDisplay bytes
  | .descriptor, bytes => decodeRequest bytes

/-- The unit an operation belongs to (30_encoding.md R50, R52, R54). -/
def Instr.port : Instr → Port
  | .encode _ _ _ _ => .descriptor
  | .tovalue _ => .descriptor
  | .nulldesc => .descriptor
  | .init | .wrchar _ | .delchar | .wrcell _ _ _ | .wrbytes _ | .clear | .advance | .retreat | .newline
  | .setfg _ | .setbg _ | .setpos _ _ => .display

/-- A display header on the byte transport: `{op, z, a, b, c}` with `z` zero, least significant byte first
(30_encoding.md R51). -/
def headerBytes (op : BitVec 4) (a b c : Byte) : List Byte := [c, b, a, op ++ 0#4]

/-- The command bytes of an operation, in transport order (30_encoding.md R51 to R54). -/
def encodeInstr : Instr → List Byte
  | .init => headerBytes 0x0#4 0#8 0#8 0#8
  | .wrchar byte => headerBytes 0x1#4 0#8 0#8 byte
  | .delchar => headerBytes 0x2#4 0#8 0#8 0#8
  | .wrcell row col byte => headerBytes 0x3#4 (BitVec.ofNat 8 row) (BitVec.ofNat 8 col) byte
  | .wrbytes sequence =>
    headerBytes 0x4#4 (BitVec.ofNat 8 (sequence.length / 256)) (BitVec.ofNat 8 sequence.length) 0#8 ++ sequence
  | .clear => headerBytes 0x5#4 0#8 0#8 0#8
  | .advance => headerBytes 0x6#4 0#8 0#8 0#8
  | .retreat => headerBytes 0x7#4 0#8 0#8 0#8
  | .newline => headerBytes 0x8#4 0#8 0#8 0#8
  | .setfg color => headerBytes 0x9#4 0#8 0#8 (0#4 ++ color)
  | .setbg color => headerBytes 0xA#4 0#8 0#8 (0#4 ++ color)
  | .setpos x y => headerBytes 0xB#4 (BitVec.ofNat 8 x) (BitVec.ofNat 8 y) 0#8
  | .nulldesc => [0#8, 0#8, 0#8, 0#8, 0#8, 0#8, 0#8, 0#8, 0x00#8]
  | .encode base limit flags access =>
    [base.extractLsb' 0 8, base.extractLsb' 8 8, base.extractLsb' 16 8, base.extractLsb' 24 8,
      limit.extractLsb' 0 8, limit.extractLsb' 8 8, flags ++ limit.extractLsb' 16 4, access, 0x10#8]
  | .tovalue d => [d.d0, d.d1, d.d2, d.d3, d.d4, d.d5, d.d6, d.d7, 0x20#8]

/-- The `n` low bytes of a word, least significant first: the byte transport of 30_encoding.md R51 and R54. -/
def bytesOfWord : Nat → Nat → List Byte
  | 0, _ => []
  | n + 1, w => BitVec.ofNat 8 w :: bytesOfWord n (w / 256)

/-- How many payload bytes follow a 32-bit display header, told from the header alone: `H[23:8]` when `H[31:28]` is
0x4, else none (30_encoding.md R53). -/
def payloadLength (h : Nat) : Nat := if h / 0x10000000 % 16 = 4 then h / 0x100 % 0x10000 else 0

/-- The port an opcode-table row belongs to: 72-bit words go to the descriptor unit, 32-bit words to the display
unit (30_encoding.md R51, R54). -/
def tablePort (nbits : Nat) : Port := if nbits = 72 then .descriptor else .display

/-- The bytes of a table row's command whose bits are `w`, with every later bit zero: nine request bytes, or four
header bytes and as many zero payload bytes as the header asks for. -/
def tableBytes (nbits w : Nat) : List Byte :=
  match tablePort nbits with
  | .descriptor => bytesOfWord 9 w
  | .display => bytesOfWord 4 w ++ List.replicate (payloadLength w) 0#8

/-- The operation the decoder reads from a table row's command whose bits are `w`. -/
def decodeTableWord (nbits w : Nat) : Option Instr :=
  match decode (tablePort nbits) (tableBytes nbits w) with
  | .ok (i, _) => some i
  | .error _ => none

/-- A row of the opcode table: the words `H` with `H & mask = pattern` (30_encoding.md R52, R54). -/
structure OpcodeRow where
  mnemonic : String
  mask : Nat
  pattern : Nat
  deriving DecidableEq, Repr

/-- The display unit's rows (30_encoding.md R52). -/
def displayRows : List OpcodeRow :=
  [⟨"INIT", 0xFFFFFFFF, 0x00000000⟩, ⟨"WRCHAR", 0xFFFFFF00, 0x10000000⟩, ⟨"DELCHAR", 0xFFFFFFFF, 0x20000000⟩,
    ⟨"WRCELL", 0xFF000000, 0x30000000⟩, ⟨"WRBYTES", 0xFF0000FF, 0x40000000⟩, ⟨"CLEAR", 0xFFFFFFFF, 0x50000000⟩,
    ⟨"ADVANCE", 0xFFFFFFFF, 0x60000000⟩, ⟨"RETREAT", 0xFFFFFFFF, 0x70000000⟩, ⟨"NEWLINE", 0xFFFFFFFF, 0x80000000⟩,
    ⟨"SETFG", 0xFFFFFFF0, 0x90000000⟩, ⟨"SETBG", 0xFFFFFFF0, 0xA0000000⟩, ⟨"SETPOS", 0xFF0000FF, 0xB0000000⟩]

/-- The descriptor unit's rows (30_encoding.md R54). -/
def requestRows : List OpcodeRow :=
  [⟨"NULLDESC", 0xFFFFFFFFFFFFFFFFFF, 0x000000000000000000⟩,
    ⟨"ENCODE", 0xFF0000000000000000, 0x100000000000000000⟩,
    ⟨"TOVALUE", 0xFF0000000000000000, 0x200000000000000000⟩]

/-- The rows of a port. -/
def Port.rows : Port → List OpcodeRow
  | .display => displayRows
  | .descriptor => requestRows

/-- The word is one the row selects. -/
def OpcodeRow.selects (r : OpcodeRow) (w : Nat) : Bool := w &&& r.mask == r.pattern

/-- The operation's mnemonic (30_encoding.md R50). -/
def Instr.mnemonic : Instr → String
  | .init => "INIT"
  | .wrchar _ => "WRCHAR"
  | .delchar => "DELCHAR"
  | .wrcell _ _ _ => "WRCELL"
  | .wrbytes _ => "WRBYTES"
  | .clear => "CLEAR"
  | .advance => "ADVANCE"
  | .retreat => "RETREAT"
  | .newline => "NEWLINE"
  | .setfg _ => "SETFG"
  | .setbg _ => "SETBG"
  | .setpos _ _ => "SETPOS"
  | .encode _ _ _ _ => "ENCODE"
  | .tovalue _ => "TOVALUE"
  | .nulldesc => "NULLDESC"

/-- The operation's operands as naturals, in the order of 30_encoding.md R50 and R57. -/
def Instr.operands : Instr → List Nat
  | .init | .delchar | .clear | .advance | .retreat | .newline | .nulldesc => []
  | .wrchar byte => [byte.toNat]
  | .wrcell row col byte => [row, col, byte.toNat]
  | .wrbytes sequence => sequence.map BitVec.toNat
  | .setfg color => [color.toNat]
  | .setbg color => [color.toNat]
  | .setpos x y => [x, y]
  | .encode base limit flags access => [base.toNat, limit.toNat, flags.toNat, access.toNat]
  | .tovalue d => [d.d0, d.d1, d.d2, d.d3, d.d4, d.d5, d.d6, d.d7].map BitVec.toNat

/-- The operation in the spec's syntax: mnemonic first, decimal operands separated by commas (30_encoding.md R57). -/
def Instr.toSource (i : Instr) : String :=
  match i.operands with
  | [] => i.mnemonic
  | ops => i.mnemonic ++ " " ++ String.intercalate ", " (ops.map toString)

end Sys2Proof
end

