-- ==== Sys2Proof/Machine/Fetch.lean ====
section
/-! DEFINITION. How the block takes the host's next operation, and how the host puts one on a port
(00_scope.md R8, 30_encoding.md R51 to R54; log 1). -/

namespace Sys2Proof.Machine

/-- The host's next operation and the state with its turn and its bytes consumed, or why there is none. -/
def fetch (s : State) : Except Refusal (Instr × State) :=
  match s.turns with
  | [] => .error .endOfRun
  | .display :: turns =>
    match decodeDisplay s.displayIn with
    | .error e => .error (.badEncoding e)
    | .ok (i, rest) => .ok (i, { s with turns := turns, displayIn := rest })
  | .descriptor :: turns =>
    match decodeRequest s.requestIn with
    | .error e => .error (.badEncoding e)
    | .ok (i, rest) => .ok (i, { s with turns := turns, requestIn := rest })

/-- The state with bytes put on a port ahead of what is pending there, their turn next. -/
def State.withNext (s : State) (p : Port) (bytes : List Byte) : State :=
  match p with
  | .display => { s with turns := .display :: s.turns, displayIn := bytes ++ s.displayIn }
  | .descriptor => { s with turns := .descriptor :: s.turns, requestIn := bytes ++ s.requestIn }

/-- The state with a sequence of operations as what the host issues next. -/
def State.withProgram (s : State) : List Instr → State
  | [] => s
  | i :: is => State.withNext (State.withProgram s is) i.port (encodeInstr i)

end Sys2Proof.Machine
end

