-- ==== Sys2Proof/Machine/Step.lean ====
section
/-! DEFINITION. One step: the operation the host issues next, run to completion (00_scope.md R8). -/

namespace Sys2Proof.Machine

/-- Take the host's next operation and run it. -/
def step (s : State) : Host.Outcome State Fault Refusal :=
  match fetch s with
  | .error r => .refused r
  | .ok (i, t) => exec i t

/-- Past the boot that precedes a program on a port: the display unit's `INIT` counts as completed, the descriptor unit
needs nothing (70_reset_and_hazards.md R151; DESIGN CHOICE, log 1). -/
def State.booted (s : State) : Port → State
  | .display => { s with initDone := true }
  | .descriptor => s

/-- The state with an opcode-table row's command, bits `w`, put where `step` takes its next operation, past the boot that
the unit needs before a step runs any of its operations (log 1). -/
def State.withFetchWord (s : State) (nbits w : Nat) : State :=
  State.withNext (s.booted (tablePort nbits)) (tablePort nbits) (tableBytes nbits w)

end Sys2Proof.Machine
end

