-- ==== Sys2Proof/Safety.lean ====
section
/-! DEFINITION. What a state of a run is expected to keep, in the terms claims use (10_state.md R16, R19, R21). -/

namespace Sys2Proof.Machine

/-- `0 <= X <= 79` and `0 <= Y <= 24` (10_state.md R16). -/
abbrev State.PositionInRange (s : State) : Prop := s.x.toNat < 80 ∧ s.y.toNat < 25

/-- The linear offset of the current position (00_scope.md section 6). -/
def State.offset (s : State) : Nat := s.y.toNat * 80 + s.x.toNat

/-- The hardware cursor is at the current position (10_state.md R19). -/
abbrev State.InSync (s : State) : Prop := s.hwCursor.toNat = s.offset

/-- The devices' contents are in canonical form and hold nothing outside the 4000 bytes of display memory and the 256
registers of the CRT controller. -/
abbrev State.DevicesWellFormed (s : State) : Prop :=
  Mem.wf s.mem ∧ Mem.within s.mem s.cfg.vgaBase 4000 ∧ Mem.wf s.crtcReg ∧ Mem.within s.crtcReg 0 256

/-- The static table is the constant of 10_state.md R21 and its length is 3. -/
abbrev State.TableConstant (s : State) : Prop := s.gdt = staticTable ∧ s.gdtLen = 3

/-- Once `INIT` has completed: the position is in range, the last push left the index latch at 0x0E, and the hardware
cursor is at a cell of the screen (10_state.md R16, 42_cursor_protocol.md R100, 93_implementation_defined.md U10). -/
abbrev State.Initialised (s : State) : Prop :=
  s.PositionInRange ∧ s.crtcIdx = 0x0E#8 ∧ s.hwCursor.toNat < 2000

/-- The invariant of every run. -/
abbrev State.Inv (s : State) : Prop :=
  s.cfg.WellFormed ∧ s.DevicesWellFormed ∧ s.TableConstant ∧ (s.initDone = true → s.Initialised)

/-- The operations that read `X`, `Y` or `ATTR` (10_state.md R26), which a model refuses before `INIT`
(60_exceptions.md R137). -/
def readsRegisters : Instr → Bool
  | .init => false
  | .wrchar _ => true
  | .delchar => true
  | .wrcell _ _ _ => true
  | .wrbytes _ => true
  | .clear => true
  | .advance => true
  | .retreat => true
  | .newline => true
  | .setfg _ => true
  | .setbg _ => true
  | .setpos _ _ => false
  | .encode _ _ _ _ => false
  | .tovalue _ => false
  | .nulldesc => false

/-! ### The summary table of 10_state.md R26 -/

/-- The operations that write `X` and `Y` (10_state.md R26). -/
def writesPosition : Instr → Bool
  | .init | .wrchar _ | .delchar | .wrbytes _ | .advance | .retreat | .newline => true
  | .wrcell _ _ _ | .clear | .setfg _ | .setbg _ | .setpos _ _ | .encode _ _ _ _ | .tovalue _ | .nulldesc => false

/-- The operations that write `ATTR` (10_state.md R26). -/
def writesAttr : Instr → Bool
  | .init | .setfg _ | .setbg _ => true
  | .wrchar _ | .delchar | .wrcell _ _ _ | .wrbytes _ | .clear | .advance | .retreat | .newline | .setpos _ _
  | .encode _ _ _ _ | .tovalue _ | .nulldesc => false

/-- The operations that write display memory (10_state.md R26). -/
def writesCells : Instr → Bool
  | .wrchar _ | .delchar | .wrcell _ _ _ | .wrbytes _ | .clear => true
  | .init | .advance | .retreat | .newline | .setfg _ | .setbg _ | .setpos _ _ | .encode _ _ _ _ | .tovalue _
  | .nulldesc => false

/-- The operations that write the CRT controller's ports (10_state.md R26). -/
def drivesPorts : Instr → Bool
  | .init | .wrchar _ | .delchar | .wrbytes _ | .advance | .retreat | .newline | .setpos _ _ => true
  | .wrcell _ _ _ | .clear | .setfg _ | .setbg _ | .encode _ _ _ _ | .tovalue _ | .nulldesc => false

/-- What an operation returns to the host, up to its value (10_state.md R26, 30_encoding.md R55). -/
def Result.FitsOperation : Instr → Result → Bool
  | .wrcell _ _ _, .oob _ => true
  | .encode _ _ _ _, .record _ => true
  | .nulldesc, .record _ => true
  | .tovalue _, .value _ => true
  | .init, .nothing | .wrchar _, .nothing | .delchar, .nothing | .wrbytes _, .nothing | .clear, .nothing
  | .advance, .nothing | .retreat, .nothing | .newline, .nothing | .setfg _, .nothing | .setbg _, .nothing
  | .setpos _ _, .nothing => true
  | _, _ => false

/-! ### Events -/

/-- The four events of a push of a linear offset (42_cursor_protocol.md R100, 95_test_vectors.md). -/
def pushEvents (cfg : Config) (off : BitVec 16) : List Event :=
  [.portWrite cfg.crtcIndex 0x0F#8, .portWrite cfg.crtcData (off.extractLsb' 0 8),
    .portWrite cfg.crtcIndex 0x0E#8, .portWrite cfg.crtcData (off.extractLsb' 8 8)]

/-- The reads of a row scan over the columns below `n` that stops at column `c`, rightmost first
(41_display_position.md R92). -/
def scanReads (r c n : Nat) : List Event := ((List.range' c (n - c)).reverse).map fun d => .cellRead (cellIndex r d)

/-- The value of the last write to cell `i` among events, oldest first, if there is one (20_memory.md R31). -/
def lastWrite (i : Nat) : List Event → Option CellWord
  | [] => none
  | e :: es =>
    match lastWrite i es, e with
    | some v, _ => some v
    | none, .cellWrite j v => if j = i then some v else none
    | none, .cellRead _ => none
    | none, .portWrite _ _ => none

/-- A run of events that is never interleaved with another: one cell write, one cell read, or the four port writes of a
push (42_cursor_protocol.md R101). -/
inductive Block where
  | write (i : Nat) (v : CellWord)
  | read (i : Nat)
  | push (off : BitVec 16)
  deriving DecidableEq, Repr

/-- The events of a block. -/
def Block.events (cfg : Config) : Block → List Event
  | .write i v => [.cellWrite i v]
  | .read i => [.cellRead i]
  | .push off => pushEvents cfg off

/-- The cell a block accesses or pushes is on the screen. -/
def Block.OnScreen : Block → Prop
  | .write i _ => i < 2000
  | .read i => i < 2000
  | .push off => off.toNat < 2000

/-! ### Where a retreat lands -/

/-- `c` is the largest column of row `r` with a non-blank cell, or 0 when the row has none
(41_display_position.md R92). -/
abbrev State.LastNonBlank (s : State) (r c : Nat) : Prop :=
  (c < 80 ∧ isBlank (s.cell (cellIndex r c)) = false ∧
    ∀ d, c < d → d < 80 → isBlank (s.cell (cellIndex r d)) = true) ∨
  (c = 0 ∧ ∀ d, d < 80 → isBlank (s.cell (cellIndex r d)) = true)

/-- Where `retreat` lands: it stays at the origin; at column 0 of a lower row it goes to the last non-blank column of the
row above; else one column back (41_display_position.md R91). -/
def State.LandsAt (s : State) (x y : Nat) : Prop :=
  (s.x.toNat = 0 ∧ s.y.toNat = 0 ∧ x = 0 ∧ y = 0) ∨
  (s.x.toNat = 0 ∧ s.y.toNat = y + 1 ∧ s.LastNonBlank y x) ∨
  (s.x.toNat = x + 1 ∧ s.y.toNat = y)

/-- The events of a `retreat` that lands at (`x`, `y`): none at the origin; else the scan's reads, if it scans, and then
the push (41_display_position.md R91). -/
def State.retreatEvents (s : State) (x y : Nat) : List Event :=
  if s.x.toNat = 0 ∧ s.y.toNat = 0 then []
  else (if s.x.toNat = 0 then scanReads y x 80 else []) ++ pushEvents s.cfg (linearOffset x y)

end Sys2Proof.Machine
end

