-- ==== Sys2Proof/Certificates/Slice0/Obligations.lean ====
section
/-! DEFINITION. The statements about the model. Each docstring names what it formalises; a clause that rests on a choice
of the model or on a decision the spec marks as its own names it. Where a statement has the premise `s.initDone = true`,
`INIT` has completed, as 70_reset_and_hazards.md R151 asks of the host; `RefusedBeforeInit` says what the same operations
do before. -/

open Sys2Proof Sys2Proof.Machine

/-! ### Encoding -/

/-- Every operation the transport can carry, at every value of its operands and whatever follows on the port, decodes from
its own command bytes, which are all consumed. The transport is the spec's own (92_eei_decisions.md D2, D3, D21). -/
def Obligations.DecodeEncodeRoundTrip : Prop :=
  ∀ (i : Instr) (rest : List Byte), i.WellFormed = true → decode i.port (encodeInstr i ++ rest) = .ok (i, rest)

/-- What a port accepts is one operation's own command and what follows it: no two commands decode to one operation, and
the decoder makes no operation the transport cannot carry. -/
def Obligations.DecodedCommandIsItsEncoding : Prop :=
  ∀ (p : Port) (bytes rest : List Byte) (i : Instr), decode p bytes = .ok (i, rest) →
    i.WellFormed = true ∧ i.port = p ∧ bytes = encodeInstr i ++ rest

/-- A display header decodes, given its payload, exactly when one row of the table of 30_encoding.md R52 selects it, and
then only that row does, and to that row's operation. -/
def Obligations.HeaderSelectsTableRow : Prop :=
  ∀ (h : BitVec 32) (rest : List Byte), payloadLength h.toNat ≤ rest.length →
    match decodeDisplay (bytesOfWord 4 h.toNat ++ rest) with
    | .ok (i, rest') =>
      (displayRows.filter fun r => r.selects h.toNat).map OpcodeRow.mnemonic = [i.mnemonic] ∧
        rest' = rest.drop (payloadLength h.toNat)
    | .error _ => displayRows.filter (fun r => r.selects h.toNat) = []

/-- A descriptor request decodes exactly when one row of the table of 30_encoding.md R54 selects it, and then only that
row does, and to that row's operation. -/
def Obligations.RequestSelectsTableRow : Prop :=
  ∀ (q : BitVec 72) (rest : List Byte),
    match decodeRequest (bytesOfWord 9 q.toNat ++ rest) with
    | .ok (i, rest') =>
      (requestRows.filter fun r => r.selects q.toNat).map OpcodeRow.mnemonic = [i.mnemonic] ∧ rest' = rest
    | .error _ => requestRows.filter (fun r => r.selects q.toNat) = []

/-- The encodings of 30_encoding.md R56 that have no meaning are refused, each by name. Which name is given where
several defects meet is the model's choice (DESIGN CHOICE, log 12). -/
def Obligations.ReservedEncodingsRefused : Prop :=
  (∀ (a b c h : Byte) (rest : List Byte),
    (zOf h ≠ 0#4 → decodeDisplay (c :: b :: a :: h :: rest) = .error .headerZNonZero) ∧
    (zOf h = 0#4 → 0xC ≤ (opOf h).toNat → decodeDisplay (c :: b :: a :: h :: rest) = .error .reservedOpcode) ∧
    (zOf h = 0#4 → (opOf h).toNat ∈ [0x0, 0x2, 0x5, 0x6, 0x7, 0x8] → ¬(a = 0#8 ∧ b = 0#8 ∧ c = 0#8) →
      decodeDisplay (c :: b :: a :: h :: rest) = .error .unusedOperandNonZero) ∧
    (zOf h = 0#4 → (opOf h).toNat = 0x1 → ¬(a = 0#8 ∧ b = 0#8) →
      decodeDisplay (c :: b :: a :: h :: rest) = .error .unusedOperandNonZero) ∧
    (zOf h = 0#4 → (opOf h).toNat ∈ [0x9, 0xA] → ¬(a = 0#8 ∧ b = 0#8 ∧ c.toNat < 16) →
      decodeDisplay (c :: b :: a :: h :: rest) = .error .unusedOperandNonZero) ∧
    (zOf h = 0#4 → (opOf h).toNat ∈ [0x4, 0xB] → c ≠ 0#8 →
      decodeDisplay (c :: b :: a :: h :: rest) = .error .unusedOperandNonZero) ∧
    (zOf h = 0#4 → (opOf h).toNat = 0x4 → c = 0#8 → rest.length < a.toNat * 256 + b.toNat →
      decodeDisplay (c :: b :: a :: h :: rest) = .error .truncatedPayload)) ∧
  (∀ bytes : List Byte, bytes.length < 4 → decodeDisplay bytes = .error .truncatedHeader) ∧
  (∀ (q0 q1 q2 q3 q4 q5 q6 q7 h : Byte) (rest : List Byte),
    (zOf h ≠ 0#4 →
      decodeRequest (q0 :: q1 :: q2 :: q3 :: q4 :: q5 :: q6 :: q7 :: h :: rest) = .error .requestZNonZero) ∧
    (zOf h = 0#4 → 0x3 ≤ (opOf h).toNat →
      decodeRequest (q0 :: q1 :: q2 :: q3 :: q4 :: q5 :: q6 :: q7 :: h :: rest) = .error .reservedFunction) ∧
    (h = 0x00#8 → (∃ q ∈ [q0, q1, q2, q3, q4, q5, q6, q7], q ≠ 0#8) →
      decodeRequest (q0 :: q1 :: q2 :: q3 :: q4 :: q5 :: q6 :: q7 :: h :: rest) = .error .nullArgumentNonZero)) ∧
  (∀ bytes : List Byte, bytes.length < 9 → decodeRequest bytes = .error .truncatedRequest)

/-- Command words of 95_test_vectors.md T15 decode to the operations they are listed for. -/
def Obligations.SampleWordsDecode : Prop :=
  decodeTableWord 32 0x10000041 = some (.wrchar 0x41#8) ∧
  decodeTableWord 32 0x30184F58 = some (.wrcell 24 79 0x58#8) ∧
  decodeTableWord 32 0xA0000009 = some (.setbg 9#4) ∧
  decodeTableWord 32 0xB04F1800 = some (.setpos 79 24) ∧
  decodeTableWord 32 0x80000000 = some .newline ∧
  decodeTableWord 72 0x109F5ABCDE12345678 = some (.encode 0x12345678#32 0xABCDE#20 0x5#4 0x9F#8) ∧
  decodeTableWord 72 0x20125A9F345678BCDE =
    some (.tovalue ⟨0xDE#8, 0xBC#8, 0x78#8, 0x56#8, 0x34#8, 0x9F#8, 0x5A#8, 0x12#8⟩)

/-! ### The step -/

/-- A step runs the operation that the bytes on the port whose turn it is decode to, on the state with that turn and
those bytes consumed and nothing else changed. (The form of the host's input is the model's, DESIGN CHOICE, log 1.) -/
def Obligations.StepRunsDecodedOperation : Prop :=
  ∀ (s : State) (turns : List Port) (i : Instr) (rest : List Byte),
    (s.turns = .display :: turns → decodeDisplay s.displayIn = .ok (i, rest) →
      step s = exec i { s with turns := turns, displayIn := rest }) ∧
    (s.turns = .descriptor :: turns → decodeRequest s.requestIn = .ok (i, rest) →
      step s = exec i { s with turns := turns, requestIn := rest })

/-- A command the host puts on its port is the one the very next step runs, and is consumed exactly: the step is `exec`
of it on the state before it was put there (log 1). -/
def Obligations.StepRunsEncodedOperation : Prop :=
  ∀ (i : Instr) (s : State), i.WellFormed = true → step (s.withNext i.port (encodeInstr i)) = exec i s

/-- A table word put where the step takes its next operation, past the boot its unit needs, is run by the very next step and
is consumed exactly; where `INIT` has completed, on the state as it was. (The form of the load is the model's, DESIGN CHOICE,
log 1.) -/
def Obligations.StepRunsTableWord : Prop :=
  ∀ (s : State) (nbits w : Nat) (i : Instr), decodeTableWord nbits w = some i →
    step (s.withFetchWord nbits w) = exec i (s.booted i.port) ∧
    (s.initDone = true → step (s.withFetchWord nbits w) = exec i s)

/-- What is no operation gets no step: bytes that do not decode are refused by the decoder's reason
(30_encoding.md R56), and when the host's sequence has ended the run is over (92_eei_decisions.md D31; DESIGN CHOICE,
log 1). -/
def Obligations.StepRefusesWhatIsNoOperation : Prop :=
  ∀ (s : State) (turns : List Port) (e : DecodeError),
    (s.turns = [] → step s = .refused .endOfRun) ∧
    (s.turns = .display :: turns → decodeDisplay s.displayIn = .error e → step s = .refused (.badEncoding e)) ∧
    (s.turns = .descriptor :: turns → decodeRequest s.requestIn = .error e → step s = .refused (.badEncoding e))

/-- A step that goes on took one whole command, the encoding of one well-formed operation, from the head of the stream
of that operation's port, and one turn of that port; it is `exec` of that operation on the rest. The other unit's bytes, the
platform and the static table stay as they are. (The turns and the two streams are the model's, DESIGN CHOICE, log 1.) -/
def Obligations.StepConsumesOneCommand : Prop :=
  ∀ s t : State, step s = .next t →
    t.cfg = s.cfg ∧ t.gdt = s.gdt ∧ t.gdtLen = s.gdtLen ∧
    ∃ i : Instr, i.WellFormed = true ∧ s.turns = i.port :: t.turns ∧
      exec i { s with turns := t.turns, displayIn := t.displayIn, requestIn := t.requestIn } = .next t ∧
      ((i.port = .display ∧ s.displayIn = encodeInstr i ++ t.displayIn ∧ s.requestIn = t.requestIn) ∨
        (i.port = .descriptor ∧ s.requestIn = encodeInstr i ++ t.requestIn ∧ s.displayIn = t.displayIn))

/-! ### Invariants and whole-machine rules -/

/-- Every step keeps the invariant: the platform's constraints, the devices' contents in canonical form and inside their
windows, the static table constant, and from `INIT` on the position in range, the index latch at 0x0E and the hardware
cursor on the screen. (The last two rest on the device model of 10_state.md R18, decision D19.) -/
def Obligations.StepKeepsInvariant : Prop :=
  ∀ s t : State, s.Inv → step s = .next t → t.Inv

/-- The invariant holds at launch, whatever the registers (log 2) and whatever canonical contents the devices hold, and at
`State.reset`, where the values are the model's (log 2, log 3, log 4). -/
def Obligations.LaunchMeetsInvariant : Prop :=
  (∀ (cfg : Config) (x : BitVec 7) (y : BitVec 5) (attr : Byte) (mem : Mem) (crtcIdx : Byte) (crtcReg : Mem),
    cfg.WellFormed → Mem.wf mem → Mem.within mem cfg.vgaBase 4000 → Mem.wf crtcReg → Mem.within crtcReg 0 256 →
    (State.launch cfg x y attr mem crtcIdx crtcReg).Inv) ∧
  State.reset.Inv

/-- Before `INIT` the registers have not been written, the static table holds its three constants and nothing has been
accessed, on every platform; every cell of the display memory, the index latch and every register of the CRT controller hold
their launch content, whatever it is (10_state.md R25). `X`, `Y` and `ATTR`, to which the spec gives no value, hold whatever
the launch puts there, in `State.reset` 0 (DESIGN CHOICE, log 2). Nothing has been returned to the host either (the field is
the model's, DESIGN CHOICE, log 10). -/
def Obligations.LaunchLeavesRegistersUnwritten : Prop :=
  ∀ (cfg : Config) (x : BitVec 7) (y : BitVec 5) (attr : Byte) (mem : Mem) (crtcIdx : Byte) (crtcReg : Mem) (s : State),
    s = State.launch cfg x y attr mem crtcIdx crtcReg →
    s.cfg = cfg ∧ s.initDone = false ∧ s.x = x ∧ s.y = y ∧ s.attr = attr ∧
    s.gdt.map recordValue = [0x0000000000000000#64, 0x00CF9A000000FFFF#64, 0x00CF92000000FFFF#64] ∧ s.gdtLen = 3 ∧
    s.events = [] ∧ s.result = .nothing ∧
    (∀ i, s.cell i = Mem.read mem (cellAddr cfg i + 1) ++ Mem.read mem (cellAddr cfg i)) ∧
    s.crtcIdx = crtcIdx ∧ (∀ r, Mem.read s.crtcReg r = Mem.read crtcReg r) ∧
    s.hwCursor = Mem.read crtcReg 0x0E ++ Mem.read crtcReg 0x0F

/-- The position is in range whenever an operation has completed, from the completion of `INIT` onward
(10_state.md R16). -/
def Obligations.PositionStaysInRange : Prop :=
  ∀ (i : Instr) (s t : State), (s.initDone = true → s.x.toNat ≤ 79 ∧ s.y.toNat ≤ 24) → exec i s = .next t →
    t.initDone = true → t.x.toNat ≤ 79 ∧ t.y.toNat ≤ 24

/-- After `INIT` every operation on every operand completes, and the next one may be issued: none panics, propagates an
error or runs on (40_display_cell_ops.md R78, R80; 60_exceptions.md R132, R135). -/
def Obligations.EveryOperationCompletes : Prop :=
  ∀ (i : Instr) (s : State), s.Inv → s.initDone = true →
    ∃ t, exec i s = .next t ∧ t.Inv ∧ t.initDone = true ∧ Result.FitsOperation i t.result = true

/-- From a state that meets the invariant no step faults: the model's one fault is out of reach. -/
def Obligations.StepNeverFaults : Prop :=
  ∀ (s : State) (f : Fault), s.Inv → step s ≠ .fault f

/-- Before `INIT` exactly the display operations that read `X`, `Y` or `ATTR` are refused; `INIT`, `SETPOS` and the
descriptor unit's functions complete (60_exceptions.md R137, decision D10; 90_conflicts.md C10). -/
def Obligations.RefusedBeforeInit : Prop :=
  ∀ (i : Instr) (s : State), s.initDone = false →
    (readsRegisters i = true → exec i s = .refused .beforeInit) ∧
    (readsRegisters i = false → ∃ t, exec i s = .next t ∧ (t.initDone = true ↔ i = .init))

/-- The values that the registers hold before `INIT`, which are the model's (log 2), show in no operation: with any others
it is refused alike, or does the same; `INIT` leaves nothing of them and the rest leave them alone (60_exceptions.md R137). -/
def Obligations.RegisterValuesBeforeInitNeverShow : Prop :=
  ∀ (i : Instr) (s : State) (x : BitVec 7) (y : BitVec 5) (attr : Byte), s.initDone = false →
    exec i { s with x := x, y := y, attr := attr } =
      match exec i s with
      | .next t => .next (if i = .init then t else { t with x := x, y := y, attr := attr })
      | .fault f => .fault f
      | .refused r => .refused r

/-- `INIT`, `SETPOS` and the descriptor unit's functions depend on no register: they complete whatever `X`, `Y` and `ATTR`
hold. `INIT` leaves nothing of the values before it; the others leave the registers alone (60_exceptions.md R137;
90_conflicts.md C10). -/
def Obligations.RegisterFreeOperations : Prop :=
  ∀ (i : Instr) (s : State) (x : BitVec 7) (y : BitVec 5) (attr : Byte), readsRegisters i = false →
    ∃ t, exec i s = .next t ∧
      exec i { s with x := x, y := y, attr := attr } =
        .next (if i = .init then t else { t with x := x, y := y, attr := attr })

/-- If the hardware cursor is in sync, it is in sync when any operation completes, but for a direct `SETPOS` to another
position on the screen; and after `INIT` it is in sync (10_state.md R19, the spec's own device model, decision D19). -/
def Obligations.OperationKeepsCursorInSync : Prop :=
  ∀ (i : Instr) (s t : State), Mem.wf s.crtcReg → exec i s = .next t →
    (i = .init → t.InSync) ∧
    (s.PositionInRange → s.InSync →
      (∀ x y, i = .setpos x y → (25 ≤ y ∨ 80 ≤ x) ∨ (x = s.x.toNat ∧ y = s.y.toNat)) → t.InSync)

/-- The next push brings the hardware cursor back: from any in-range position, in sync or not, `ADVANCE`, `WRCHAR`,
`NEWLINE`, a `WRBYTES` that writes a character, and `RETREAT` and `DELCHAR` off the origin answer a state in sync
(10_state.md R19, 70_reset_and_hazards.md R163, derived there; device model decision D19, log 8). At the origin `RETREAT` and
`DELCHAR`, and on any position a `WRBYTES` that writes no character, leave the hardware cursor where it is (no push at the
origin is decision D14, log 17). -/
def Obligations.NextPushResynchronises : Prop :=
  ∀ s : State, s.initDone = true → s.PositionInRange → Mem.wf s.crtcReg →
    (∃ t, exec .advance s = .next t ∧ t.InSync) ∧
    (∀ byte, ∃ t, exec (.wrchar byte) s = .next t ∧ t.InSync) ∧
    (∃ t, exec .newline s = .next t ∧ t.InSync) ∧
    (∀ sequence : List Byte,
      (sequence.takeWhile (· != 0#8) ≠ [] → ∃ t, exec (.wrbytes sequence) s = .next t ∧ t.InSync) ∧
      (sequence.takeWhile (· != 0#8) = [] →
        ∃ t, exec (.wrbytes sequence) s = .next t ∧ t.hwCursor = s.hwCursor ∧ t.offset = s.offset)) ∧
    (¬(s.x.toNat = 0 ∧ s.y.toNat = 0) →
      (∃ t, exec .retreat s = .next t ∧ t.InSync) ∧ ∃ t, exec .delchar s = .next t ∧ t.InSync) ∧
    (s.x.toNat = 0 ∧ s.y.toNat = 0 →
      (∃ t, exec .retreat s = .next t ∧ t.hwCursor = s.hwCursor ∧ t.offset = s.offset) ∧
        ∃ t, exec .delchar s = .next t ∧ t.hwCursor = s.hwCursor ∧ t.offset = s.offset)

/-- A direct `SETPOS` on the screen moves the hardware cursor and not the position: in sync afterwards exactly if it was
given the position (70_reset_and_hazards.md R163, derived there). -/
def Obligations.DirectSetposDesynchronises : Prop :=
  ∀ (x y : Nat) (s : State), Mem.wf s.crtcReg → s.PositionInRange → x < 80 → y < 25 →
    ∃ t, exec (.setpos x y) s = .next t ∧ t.x = s.x ∧ t.y = s.y ∧ t.hwCursor.toNat = y * 80 + x ∧
      (t.InSync ↔ x = s.x.toNat ∧ y = s.y.toNat)

/-- Read after write: a cell written and read back gives the character and the attribute active at write time; and a cell
always holds the last value written to it in the event history, or its launch content (20_memory.md R31). -/
def Obligations.CellsFollowTheEventHistory : Prop :=
  (∀ (row col : Nat) (byte : Byte) (s : State), s.initDone = true → Mem.wf s.mem → row < 25 → col < 80 →
    ∃ t, exec (.wrcell row col byte) s = .next t ∧ charByte (t.cell (cellIndex row col)) = byte ∧
      attrByte (t.cell (cellIndex row col)) = s.attr) ∧
  (∀ (i : Instr) (s t : State) (launch : Nat → CellWord), Mem.wf s.mem →
    (∀ n, s.cell n = (lastWrite n s.events).getD (launch n)) → exec i s = .next t →
    ∀ n, t.cell n = (lastWrite n t.events).getD (launch n))

/-- Whatever an operation does, the events it adds are whole blocks: single accesses to cells of the screen, and pushes of
offsets below 2000, each of exactly four writes to index, data, index, data with first and third bytes 0x0F and 0x0E and
nothing between them (42_cursor_protocol.md R101, derived there). -/
def Obligations.PortSequenceIsFixed : Prop :=
  ∀ (i : Instr) (s t : State), Mem.wf s.mem → exec i s = .next t →
    ∃ blocks : List Block, (∀ b ∈ blocks, b.OnScreen) ∧
      t.events = s.events ++ blocks.flatMap (Block.events s.cfg)

/-- No operation's outcome depends on the event history: with any older history behind it, the operation does the same and
adds the same events (10_state.md R23, derived there; the log's form is the model's, log 11). -/
def Obligations.HistoryIsBookkeeping : Prop :=
  ∀ (i : Instr) (s : State) (old : List Event),
    exec i { s with log := s.log ++ old } =
      match exec i s with
      | .next t => .next { t with log := t.log ++ old }
      | .fault f => .fault f
      | .refused r => .refused r

/-- No operation depends on what the CRT controller holds: with any other index latch and registers it stops alike, or
does and records the same, the controller apart. So a push writes its four bytes whether or not they change
(10_state.md R20). -/
def Obligations.PushIgnoresTheDevice : Prop :=
  ∀ (i : Instr) (s : State) (crtcIdx : Byte) (crtcReg : Mem),
    match exec i s with
    | .next t =>
      ∃ u, exec i { s with crtcIdx := crtcIdx, crtcReg := crtcReg } = .next u ∧
        u = { t with crtcIdx := u.crtcIdx, crtcReg := u.crtcReg }
    | .fault f => exec i { s with crtcIdx := crtcIdx, crtcReg := crtcReg } = .fault f
    | .refused r => exec i { s with crtcIdx := crtcIdx, crtcReg := crtcReg } = .refused r

/-- The frame of every operation, as the summary table of 10_state.md R26 gives it: what it does not name it leaves
alone; the platform, the static table and the host's pending input always; and `INIT` alone sets `initDone`. -/
def Obligations.OperationsWriteOnlyWhatTheyName : Prop :=
  ∀ (i : Instr) (s t : State), exec i s = .next t →
    (writesPosition i = false → t.x = s.x ∧ t.y = s.y) ∧
    (writesAttr i = false → t.attr = s.attr) ∧
    (writesCells i = false → t.mem = s.mem) ∧
    (drivesPorts i = false → t.crtcIdx = s.crtcIdx ∧ t.crtcReg = s.crtcReg) ∧
    t.initDone = (s.initDone || decide (i = .init)) ∧
    t.cfg = s.cfg ∧ t.gdt = s.gdt ∧ t.gdtLen = s.gdtLen ∧
    t.turns = s.turns ∧ t.displayIn = s.displayIn ∧ t.requestIn = s.requestIn ∧
    Result.FitsOperation i t.result = true

/-- No operation changes a byte outside the display memory, or a CRT controller register other than 0x0E and 0x0F
(20_memory.md R30; 42_cursor_protocol.md R101; 10_state.md R25). -/
def Obligations.DevicesOutsideTheProtocolUntouched : Prop :=
  ∀ (i : Instr) (s t : State), Mem.wf s.mem → exec i s = .next t →
    (∀ a, a < s.cfg.vgaBase ∨ s.cfg.vgaBase + 4000 ≤ a → Mem.read t.mem a = Mem.read s.mem a) ∧
    (∀ r, r ≠ 0x0E → r ≠ 0x0F → Mem.read t.crtcReg r = Mem.read s.crtcReg r)

/-- While the host passes `SETBG` only 0 to 7, attribute bit 7 stays clear on every platform R6 allows
(10_state.md R13; 70_reset_and_hazards.md R157; decision D29). -/
def Obligations.BlinkStaysClear : Prop :=
  ∀ (i : Instr) (s t : State), s.cfg.WellFormed → blink s.attr = false →
    (∀ color, i = .setbg color → color.toNat < 8) → exec i s = .next t → blink t.attr = false

/-! ### Cell and attribute operations -/

/-- `INIT` from any state: position (0, 0), the platform's default attribute, a push of offset 0 that leaves the hardware
cursor there, no cell accessed (40_display_cell_ops.md R70; 10_state.md R25; device model decision D19). -/
def Obligations.InitResult : Prop :=
  ∀ s : State, Mem.wf s.crtcReg →
    ∃ t, exec .init s = .next t ∧
      t = { s with
            x := 0#7
            y := 0#5
            attr := s.cfg.defaultAttr
            initDone := true
            crtcIdx := 0x0E#8
            crtcReg := t.crtcReg
            result := .nothing
            log := t.log } ∧
      t.events = s.events ++ pushEvents s.cfg 0#16 ∧ t.hwCursor = 0#16 ∧
      (∀ r, r ≠ 0x0E → r ≠ 0x0F → Mem.read t.crtcReg r = Mem.read s.crtcReg r)

/-- `WRCHAR byte` (40_display_cell_ops.md R71): the cell at the position gets the byte, whatever it is, under the current
attribute; no other byte of memory changes; then the position advances with wrap and is pushed. Out of range, in a state
that no run reaches, the inner write's result is discarded and the advance still happens. -/
def Obligations.WrcharResult : Prop :=
  ∀ (byte : Byte) (s : State), s.initDone = true → Mem.wf s.mem →
    (s.PositionInRange → ∃ t, exec (.wrchar byte) s = .next t ∧
      t = { s with
            x := t.x
            y := t.y
            mem := t.mem
            crtcIdx := t.crtcIdx
            crtcReg := t.crtcReg
            result := .nothing
            log := t.log } ∧
      t.cell (cellIndex s.y.toNat s.x.toNat) = cellOf s.attr byte ∧
      (∀ a, a ≠ cellAddr s.cfg (cellIndex s.y.toNat s.x.toNat) →
        a ≠ cellAddr s.cfg (cellIndex s.y.toNat s.x.toNat) + 1 → Mem.read t.mem a = Mem.read s.mem a) ∧
      (s.x.toNat < 79 → t.x.toNat = s.x.toNat + 1 ∧ t.y = s.y) ∧
      (s.x.toNat = 79 → s.y.toNat < 24 → t.x = 0#7 ∧ t.y.toNat = s.y.toNat + 1) ∧
      (s.x.toNat = 79 → s.y.toNat = 24 → t.x = 0#7 ∧ t.y = 0#5) ∧
      t.events = s.events ++
        .cellWrite (cellIndex s.y.toNat s.x.toNat) (cellOf s.attr byte) ::
          pushEvents s.cfg (BitVec.ofNat 16 (t.y.toNat * 80 + t.x.toNat))) ∧
    (¬s.PositionInRange → exec (.wrchar byte) s = exec .advance s) ∧
    decodeTableWord 32 (0x10000000 + byte.toNat) = some (.wrchar byte)

/-- `DELCHAR` (40_display_cell_ops.md R72): the position retreats, then the cell there is blanked under the current
attribute, also at the origin (decision D13, log 18); no other byte of memory changes. The events are those of the retreat,
none at the origin (decision D14, 90_conflicts.md C8, log 17), with the scan's reads down to the hit where it scans (decision
D15, log 18), and then the one cell write. -/
def Obligations.DelcharResult : Prop :=
  ∀ s : State, s.initDone = true → s.PositionInRange → Mem.wf s.mem →
    ∃ t, exec .delchar s = .next t ∧
      t = { s with
            x := t.x
            y := t.y
            mem := t.mem
            crtcIdx := t.crtcIdx
            crtcReg := t.crtcReg
            result := .nothing
            log := t.log } ∧
      t.PositionInRange ∧ s.LandsAt t.x.toNat t.y.toNat ∧
      t.cell (cellIndex t.y.toNat t.x.toNat) = cellOf s.attr 0#8 ∧
      (∀ a, a ≠ cellAddr s.cfg (cellIndex t.y.toNat t.x.toNat) →
        a ≠ cellAddr s.cfg (cellIndex t.y.toNat t.x.toNat) + 1 → Mem.read t.mem a = Mem.read s.mem a) ∧
      t.events = s.events ++ s.retreatEvents t.x.toNat t.y.toNat ++
        [.cellWrite (cellIndex t.y.toNat t.x.toNat) (cellOf s.attr 0#8)]

/-- `WRCELL row, col, byte` (40_display_cell_ops.md R73): on any naturals, out of bounds answers 1 and changes nothing;
in bounds answers 0, writes that one cell and nothing else, and drives no port; a later change of the attribute changes
no cell. -/
def Obligations.WrcellResult : Prop :=
  ∀ (row col : Nat) (byte : Byte) (s : State), s.initDone = true → Mem.wf s.mem →
    (25 ≤ row ∨ 80 ≤ col → exec (.wrcell row col byte) s = .next { s with result := .oob true }) ∧
    (row < 25 → col < 80 →
      ∃ t, exec (.wrcell row col byte) s = .next t ∧
        t = { s with mem := t.mem, result := .oob false, log := t.log } ∧
        t.cell (row * 80 + col) = cellOf s.attr byte ∧
        (∀ a, a ≠ cellAddr s.cfg (row * 80 + col) → a ≠ cellAddr s.cfg (row * 80 + col) + 1 →
          Mem.read t.mem a = Mem.read s.mem a) ∧
        t.events = s.events ++ [.cellWrite (row * 80 + col) (cellOf s.attr byte)]) ∧
    (∀ (color : BitVec 4) (t u : State), exec (.wrcell row col byte) s = .next t →
      exec (.setfg color) t = .next u ∨ exec (.setbg color) t = .next u → ∀ i, u.cell i = t.cell i) ∧
    (row < 256 → col < 256 →
      decodeTableWord 32 (0x30000000 + row * 0x10000 + col * 0x100 + byte.toNat) = some (.wrcell row col byte))

/-- `WRBYTES sequence` (40_display_cell_ops.md R74; decision D26 for a sequence without a zero): the bytes before the first
zero, each written and pushed in turn and wrapping at the bottom of the screen; what follows the zero has no effect. -/
def Obligations.WrbytesResult : Prop :=
  ∀ (sequence : List Byte) (s : State), s.initDone = true → s.PositionInRange → Mem.wf s.mem →
    ∃ t, exec (.wrbytes sequence) s = .next t ∧
      t = { s with
            x := t.x
            y := t.y
            mem := t.mem
            crtcIdx := t.crtcIdx
            crtcReg := t.crtcReg
            result := .nothing
            log := t.log } ∧
      t.PositionInRange ∧ t.offset = (s.offset + (sequence.takeWhile (· != 0#8)).length) % 2000 ∧
      t.events = s.events ++
        ((sequence.takeWhile (· != 0#8)).mapIdx fun j b =>
          Event.cellWrite ((s.offset + j) % 2000) (cellOf s.attr b) ::
            pushEvents s.cfg (BitVec.ofNat 16 ((s.offset + j + 1) % 2000))).flatten ∧
      (∀ n, t.cell n =
        (lastWrite n
          ((sequence.takeWhile (· != 0#8)).mapIdx fun j b =>
            Event.cellWrite ((s.offset + j) % 2000) (cellOf s.attr b)) |>.getD (s.cell n))) ∧
      (∀ a, (∀ j, j < (sequence.takeWhile (· != 0#8)).length →
          a ≠ cellAddr s.cfg ((s.offset + j) % 2000) ∧ a ≠ cellAddr s.cfg ((s.offset + j) % 2000) + 1) →
        Mem.read t.mem a = Mem.read s.mem a)

/-- A sequence may be split into two `WRBYTES` at any point that does not fall after a zero byte
(30_encoding.md R53, derived there). -/
def Obligations.WrbytesSplit : Prop :=
  ∀ (first second : List Byte) (s : State), 0#8 ∉ first →
    exec (.wrbytes (first ++ second)) s =
      match exec (.wrbytes first) s with
      | .next t => exec (.wrbytes second) t
      | .fault f => .fault f
      | .refused r => .refused r

/-- `CLEAR` (40_display_cell_ops.md R75; attribute and order are decision D12): every one of the 2000 cells holds character
0 under the current attribute, written in ascending order; position, attribute and CRT controller stay. -/
def Obligations.ClearResult : Prop :=
  ∀ s : State, s.initDone = true → Mem.wf s.mem →
    ∃ t, exec .clear s = .next t ∧
      t = { s with mem := t.mem, result := .nothing, log := t.log } ∧
      (∀ i, i < 2000 → t.cell i = cellOf s.attr 0#8 ∧ isBlank (t.cell i) = true) ∧
      (∀ a, a < s.cfg.vgaBase ∨ s.cfg.vgaBase + 4000 ≤ a → Mem.read t.mem a = Mem.read s.mem a) ∧
      t.events = s.events ++ (List.range 2000).map fun i => Event.cellWrite i (cellOf s.attr 0#8)

/-- `SETFG color` (40_display_cell_ops.md R76): attribute bits 3:0 become the colour, bits 7:4 and everything else stay. -/
def Obligations.SetForegroundResult : Prop :=
  ∀ (color : BitVec 4) (s : State), s.initDone = true →
    exec (.setfg color) s =
      .next { s with attr := (s.attr &&& 0xF0#8) ||| color.setWidth 8, result := .nothing } ∧
    decodeTableWord 32 (0x90000000 + color.toNat) = some (.setfg color)

/-- `SETBG color` (40_display_cell_ops.md R77; 8 to 15 stored as given, decision D29): attribute bits 7:4 become the colour,
bits 3:0 and everything else stay. -/
def Obligations.SetBackgroundResult : Prop :=
  ∀ (color : BitVec 4) (s : State), s.initDone = true →
    exec (.setbg color) s =
      .next { s with attr := (s.attr &&& 0x0F#8) ||| (color.setWidth 8 <<< 4), result := .nothing } ∧
    decodeTableWord 32 (0xA0000000 + color.toNat) = some (.setbg color)

/-- Foreground and background in either order leave the same attribute, and setting one never alters the other's nibble
(95_test_vectors.md S9). -/
def Obligations.AttributeNibblesAreIndependent : Prop :=
  ∀ (f b : BitVec 4) (s t : State), s.initDone = true →
    (exec (.setfg f) s = .next t →
      exec (.setbg b) t = .next { s with attr := BitVec.ofNat 8 (b.toNat * 16 + f.toNat), result := .nothing }) ∧
    (exec (.setbg b) s = .next t →
      exec (.setfg f) t = .next { s with attr := BitVec.ofNat 8 (b.toNat * 16 + f.toNat), result := .nothing })

/-! ### Position operations -/

/-- `ADVANCE` (41_display_position.md R90): (x+1, y), but (79, y) goes to (0, y+1) and (79, 24) to (0, 0). The new position
is pushed; no cell is accessed. 80 from (0, 0) lead to column 0 of row 1, and 2000 lead back. -/
def Obligations.AdvanceResult : Prop :=
  (∀ s : State, s.initDone = true → s.PositionInRange →
    ∃ t, exec .advance s = .next t ∧
      t = { s with
            x := t.x
            y := t.y
            crtcIdx := t.crtcIdx
            crtcReg := t.crtcReg
            result := .nothing
            log := t.log } ∧
      (s.x.toNat < 79 → t.x.toNat = s.x.toNat + 1 ∧ t.y = s.y) ∧
      (s.x.toNat = 79 → s.y.toNat < 24 → t.x = 0#7 ∧ t.y.toNat = s.y.toNat + 1) ∧
      (s.x.toNat = 79 → s.y.toNat = 24 → t.x = 0#7 ∧ t.y = 0#5) ∧
      t.events = s.events ++ pushEvents s.cfg (BitVec.ofNat 16 (t.y.toNat * 80 + t.x.toNat))) ∧
  (∀ run : Nat → State, (run 0).initDone = true → (run 0).x = 0#7 → (run 0).y = 0#5 →
    ((∀ k, k < 80 → exec .advance (run k) = .next (run (k + 1))) → (run 80).x = 0#7 ∧ (run 80).y = 1#5) ∧
    ((∀ k, k < 2000 → exec .advance (run k) = .next (run (k + 1))) → (run 2000).x = 0#7 ∧ (run 2000).y = 0#5)) ∧
  decodeTableWord 32 0x60000000 = some .advance

/-- `n` consecutive `ADVANCE`s move the position on by `n` cells modulo 2000 and access no cell; their events are `n` pushes
of the successive offsets, so `4n` port writes and nothing else. So 80 from (0, 0) lead to column 0 of row 1 and 2000 lead
back (95_test_vectors.md S2, S3), and every position is reached (41_display_position.md R95, derived there). -/
def Obligations.AdvanceRepeated : Prop :=
  ∀ (n : Nat) (run : Nat → State), (run 0).initDone = true → (run 0).PositionInRange →
    (∀ k, k < n → exec .advance (run k) = .next (run (k + 1))) →
    (run n).x.toNat = ((run 0).offset + n) % 2000 % 80 ∧ (run n).y.toNat = ((run 0).offset + n) % 2000 / 80 ∧
    (run n).mem = (run 0).mem ∧ (run n).attr = (run 0).attr ∧
    (run n).events = (run 0).events ++
      (List.range n).flatMap fun j => pushEvents (run 0).cfg (BitVec.ofNat 16 (((run 0).offset + j + 1) % 2000))

/-- `RETREAT` (41_display_position.md R91; the total no-op at the origin is decision D14, 90_conflicts.md C8, log 17; the
reads of the scan are decision D15, log 18): where it lands, what it reads, its push, and that it changes no cell. -/
def Obligations.RetreatResult : Prop :=
  ∀ s : State, s.initDone = true → s.PositionInRange →
    ∃ t, exec .retreat s = .next t ∧
      t = { s with
            x := t.x
            y := t.y
            crtcIdx := t.crtcIdx
            crtcReg := t.crtcReg
            result := .nothing
            log := t.log } ∧
      t.PositionInRange ∧ s.LandsAt t.x.toNat t.y.toNat ∧
      t.events = s.events ++ s.retreatEvents t.x.toNat t.y.toNat ∧
      (s.x.toNat = 0 → s.y.toNat = 0 → t = { s with result := .nothing })

/-- The row scan (41_display_position.md R92; stopping point and read width are decision D15): for every row of the
screen it answers the largest non-blank column or 0, reads from column 79 down to its answer, and changes nothing else. -/
def Obligations.RowScanResult : Prop :=
  ∀ (r : Nat) (s : State), r < 25 →
    ∃ c t, lastNonblankColumn r s = .ok (c, t) ∧ c < 80 ∧ s.LastNonBlank r c ∧
      t = { s with log := t.log } ∧
      t.events = s.events ++ (List.range' c (80 - c)).reverse.map fun d => Event.cellRead (r * 80 + d)

/-- `NEWLINE` (41_display_position.md R93, closed form derived there): column 0 of the next row, the bottom row wrapping to
row 0, after `80 - x` advances each of which is pushed; no cell is accessed. -/
def Obligations.NewlineResult : Prop :=
  ∀ s : State, s.initDone = true → s.PositionInRange →
    ∃ t, exec .newline s = .next t ∧
      t = { s with
            x := 0#7
            y := t.y
            crtcIdx := t.crtcIdx
            crtcReg := t.crtcReg
            result := .nothing
            log := t.log } ∧
      t.y.toNat = (s.y.toNat + 1) % 25 ∧
      t.events = s.events ++
        (List.range (80 - s.x.toNat)).flatMap fun j =>
          pushEvents s.cfg (BitVec.ofNat 16 ((s.offset + j + 1) % 2000))

/-! ### The cursor protocol -/

/-- `SETPOS x, y` (42_cursor_protocol.md R100; effect on the device derived there): out of bounds it changes nothing; in
bounds it makes the four port writes, low byte first, and leaves the hardware cursor at the offset. It needs no `INIT`
and touches no register and no cell. -/
def Obligations.SetposResult : Prop :=
  ∀ (x y : Nat) (s : State), Mem.wf s.crtcReg →
    (80 ≤ x ∨ 25 ≤ y → exec (.setpos x y) s = .next { s with result := .nothing }) ∧
    (x < 80 → y < 25 →
      ∃ t, exec (.setpos x y) s = .next t ∧
        t = { s with crtcIdx := 0x0E#8, crtcReg := t.crtcReg, result := .nothing, log := t.log } ∧
        t.events = s.events ++
          [.portWrite s.cfg.crtcIndex 0x0F#8,
            .portWrite (s.cfg.crtcIndex + 1#16) (BitVec.ofNat 8 (y * 80 + x)),
            .portWrite s.cfg.crtcIndex 0x0E#8,
            .portWrite (s.cfg.crtcIndex + 1#16) (BitVec.ofNat 8 ((y * 80 + x) / 256))] ∧
        t.hwCursor.toNat = y * 80 + x ∧
        (∀ r, r ≠ 0x0E → r ≠ 0x0F → Mem.read t.crtcReg r = Mem.read s.crtcReg r)) ∧
    (x < 256 → y < 256 → decodeTableWord 32 (0xB0000000 + x * 0x10000 + y * 0x100) = some (.setpos x y))

/-- Inside a push the hardware cursor is torn: after the second and the third port write it is the old high byte with the
new low byte, and after the fourth the offset (70_reset_and_hazards.md R161, derived there). -/
def Obligations.CursorIsTornInsideAPush : Prop :=
  ∀ (off : BitVec 16) (s two three four : State), Mem.wf s.crtcReg →
    two = portWrite .data (off.extractLsb' 0 8) (portWrite .index 0x0F#8 s) →
    three = portWrite .index 0x0E#8 two → four = portWrite .data (off.extractLsb' 8 8) three →
    four = pushOffset off s ∧ four.hwCursor = off ∧
    two.hwCursor = s.hwCursor.extractLsb' 8 8 ++ off.extractLsb' 0 8 ∧ three.hwCursor = two.hwCursor

/-- The two checks are one predicate with the operands in opposite order: `WRCELL row, col` answers out of bounds exactly
if `SETPOS col, row` makes no port write (42_cursor_protocol.md R102). -/
def Obligations.BothBoundsChecksAgree : Prop :=
  ∀ (row col : Nat) (byte : Byte) (s : State), s.initDone = true →
    ∃ t u, exec (.wrcell row col byte) s = .next t ∧ exec (.setpos col row) s = .next u ∧
      (t.result = .oob true ↔ u.events = s.events) ∧ (t.result = .oob false ↔ u.events ≠ s.events)

/-- Address decode (20_memory.md R30): on the legal range the index is injective and onto 0 to 1999, and the address is
even and inside the 4000 bytes from `VGA_BASE`. -/
def Obligations.AddressDecodeIsABijection : Prop :=
  (∀ r c r' c', r < 25 → c < 80 → r' < 25 → c' < 80 → cellIndex r c = cellIndex r' c' → r = r' ∧ c = c') ∧
  (∀ i, i < 2000 → ∃ r c, r < 25 ∧ c < 80 ∧ cellIndex r c = i) ∧
  (∀ (cfg : Config) (r c : Nat), cfg.WellFormed → r < 25 → c < 80 →
    cellIndex r c < 2000 ∧ cfg.vgaBase ≤ cellAddr cfg (cellIndex r c) ∧
    cellAddr cfg (cellIndex r c) + 1 < cfg.vgaBase + 4000 ∧ cellAddr cfg (cellIndex r c) % 2 = 0)

/-! ### The descriptor unit -/

/-- `ENCODE base, limit, flags, access` (43_descriptor_encoder.md R111): the eight bytes of the record, for all operands, at
any time; nothing but the result changes. -/
def Obligations.EncodeResult : Prop :=
  ∀ (base : BitVec 32) (limit : BitVec 20) (flags : BitVec 4) (access : Byte) (s : State),
    exec (.encode base limit flags access) s =
      .next { s with
              result := .record
                { d0 := BitVec.ofNat 8 limit.toNat
                  d1 := BitVec.ofNat 8 (limit.toNat / 0x100)
                  d2 := BitVec.ofNat 8 base.toNat
                  d3 := BitVec.ofNat 8 (base.toNat / 0x100)
                  d4 := BitVec.ofNat 8 (base.toNat / 0x10000)
                  d5 := access
                  d6 := BitVec.ofNat 8 (flags.toNat * 16 + limit.toNat / 0x10000)
                  d7 := BitVec.ofNat 8 (base.toNat / 0x1000000) } } ∧
    decodeTableWord 72
      (0x100000000000000000 + access.toNat * 0x100000000000000 + flags.toNat * 0x10000000000000 +
        limit.toNat * 0x100000000 + base.toNat) = some (.encode base limit flags access)

/-- `TOVALUE d` (43_descriptor_encoder.md R112): the record read as a little-endian 64-bit integer; nothing but the result
changes. The value determines the record and the fields it was made from. -/
def Obligations.TovalueResult : Prop :=
  (∀ (d : Descriptor) (s : State),
    exec (.tovalue d) s =
      .next { s with
              result := .value (BitVec.ofNat 64
                (d.d0.toNat + d.d1.toNat * 2 ^ 8 + d.d2.toNat * 2 ^ 16 + d.d3.toNat * 2 ^ 24 + d.d4.toNat * 2 ^ 32 +
                  d.d5.toNat * 2 ^ 40 + d.d6.toNat * 2 ^ 48 + d.d7.toNat * 2 ^ 56)) } ∧
    decodeTableWord 72 (0x200000000000000000 + (recordValue d).toNat) = some (.tovalue d)) ∧
  (∀ (base : BitVec 32) (limit : BitVec 20) (flags : BitVec 4) (access : Byte),
    recordValue (packRecord base limit flags access) =
      (limit.extractLsb' 0 16).setWidth 64 ||| (base.extractLsb' 0 24).setWidth 64 <<< 16 |||
        access.setWidth 64 <<< 40 ||| (limit.extractLsb' 16 4).setWidth 64 <<< 48 |||
        flags.setWidth 64 <<< 52 ||| (base.extractLsb' 24 8).setWidth 64 <<< 56) ∧
  (∀ d e : Descriptor, recordValue d = recordValue e → d = e) ∧
  (∀ (base base' : BitVec 32) (limit limit' : BitVec 20) (flags flags' : BitVec 4) (access access' : Byte),
    recordValue (packRecord base limit flags access) = recordValue (packRecord base' limit' flags' access') →
      base = base' ∧ limit = limit' ∧ flags = flags' ∧ access = access')

/-- `NULLDESC` (43_descriptor_encoder.md R113): the all-zero record, the one `ENCODE` gives for zero operands and entry 0 of
the table holds; nothing but the result changes. -/
def Obligations.NulldescResult : Prop :=
  (∀ s : State,
    exec .nulldesc s = .next { s with result := .record ⟨0#8, 0#8, 0#8, 0#8, 0#8, 0#8, 0#8, 0#8⟩ } ∧
    exec .nulldesc s = exec (.encode 0#32 0#20 0#4 0#8) s) ∧
  recordValue nullRecord = 0#64 ∧ staticTable.head? = some nullRecord ∧
  decodeTableWord 72 0x000000000000000000 = some .nulldesc

/-- The packing is a bijection between field tuples and records: the fields can be read back from the record, and every
record is the record of its fields (43_descriptor_encoder.md R110). -/
def Obligations.PackingIsABijection : Prop :=
  (∀ (base : BitVec 32) (limit : BitVec 20) (flags : BitVec 4) (access : Byte),
    recordBase (packRecord base limit flags access) = base ∧
    recordLimit (packRecord base limit flags access) = limit ∧
    recordFlags (packRecord base limit flags access) = flags ∧
    recordAccess (packRecord base limit flags access) = access) ∧
  (∀ d : Descriptor, packRecord (recordBase d) (recordLimit d) (recordFlags d) (recordAccess d) = d)

/-- The static table: null, flat code, flat data, as `ENCODE` makes them from the named constants; byte `k` of descriptor
`n` stands at `GDT_ADDR + 8n + k`, and no byte outside the 24 belongs to it (43_descriptor_encoder.md R118, derived there;
20_memory.md R39, decision D22). -/
def Obligations.StaticTableImage : Prop :=
  ∀ s : State, s.TableConstant →
    s.gdt = [nullRecord, packRecord 0#32 0xFFFFF#20 flat32 kernelCode, packRecord 0#32 0xFFFFF#20 flat32 kernelData] ∧
    s.gdtLen = s.gdt.length ∧
    (∀ n k, n < 3 → k < 8 →
      s.tableByte (s.cfg.gdtAddr + 8 * n + k) = (s.gdt[n]?).bind fun d => (recordBytes d)[k]?) ∧
    (∀ a, a < s.cfg.gdtAddr ∨ s.cfg.gdtAddr + 24 ≤ a → s.tableByte a = none)
end

