-- ==== Sys2Proof/Laws/Memory.lean ====
section
/-! SUPPORT. The laws of bytes by address: read after write, the canonical form, and that equal reads mean equal
memories. -/

namespace Sys2Proof.Machine

/-- A write leaves every other address as it was. -/
theorem Mem.read_write_other (m : Mem) {a b : Nat} (v : Byte) (h : b ≠ a) :
    Mem.read (Mem.write m a v) b = Mem.read m b := by
  induction m with
  | nil => simp only [Mem.write]; split <;> simp [Mem.read, h.symm]
  | cons c m ih =>
    obtain ⟨k, w⟩ := c
    simp only [Mem.write]
    split
    · split <;> simp [Mem.read, h.symm]
    · split
      · subst k; split <;> simp [Mem.read, h.symm]
      · simp [Mem.read, ih]

/-- An address below every listed one is unlisted. -/
theorem Mem.read_below {m : Mem} {a : Nat} (h : ∀ c ∈ m, a < c.1) : Mem.read m a = unlisted a := by
  induction m with
  | nil => rfl
  | cons c m ih =>
    have hc := h c (by simp)
    simp only [Mem.read]
    rw [if_neg (by omega), ih fun d hd => h d (by simp [hd])]

/-- The tail of a canonical memory is canonical. -/
theorem Mem.wf_tail {c : Host.Cell} {m : Mem} (h : Mem.wf (c :: m)) : Mem.wf m :=
  ⟨(List.pairwise_cons.1 h.1).2, fun d hd => h.2 d (by simp [hd])⟩

/-- In a canonical memory the head lies below the tail. -/
theorem Mem.wf_head_lt {c : Host.Cell} {m : Mem} (h : Mem.wf (c :: m)) : ∀ d ∈ m, c.1 < d.1 :=
  (List.pairwise_cons.1 h.1).1

/-- A read after a write to the same address gives the byte written. -/
theorem Mem.read_write_same {m : Mem} (h : Mem.wf m) (a : Nat) (v : Byte) :
    Mem.read (Mem.write m a v) a = v := by
  induction m with
  | nil => simp only [Mem.write]; split <;> simp_all [Mem.read]
  | cons c m ih =>
    obtain ⟨k, w⟩ := c
    have hlt := Mem.wf_head_lt h
    simp only [Mem.write]
    split
    · split
      · next hk hv =>
        rw [hv]
        refine Mem.read_below fun d hd => ?_
        rcases List.mem_cons.1 hd with rfl | hd
        · exact hk
        · have := hlt d hd; simp only at this; omega
      · simp [Mem.read]
    · split
      · next hk =>
        subst hk
        split
        · next hv => rw [hv]; exact Mem.read_below hlt
        · simp [Mem.read]
      · next h1 h2 => simp only [Mem.read]; rw [if_neg (fun e => h2 e.symm)]; exact ih (Mem.wf_tail h)

/-- Every entry after a write was there before or is the one written. -/
theorem Mem.mem_write {m : Mem} {a : Nat} {v : Byte} {c : Host.Cell} (h : c ∈ Mem.write m a v) :
    c ∈ m ∨ (c = (a, v) ∧ v ≠ unlisted a) := by
  induction m with
  | nil => simp only [Mem.write] at h; split at h <;> simp_all
  | cons d m ih =>
    obtain ⟨k, w⟩ := d
    simp only [Mem.write] at h
    split at h
    · split at h
      · exact .inl h
      · next hv => rcases List.mem_cons.1 h with rfl | h
                   · exact .inr ⟨rfl, hv⟩
                   · exact .inl h
    · split at h
      · split at h
        · exact .inl (by simp [h])
        · next hv => rcases List.mem_cons.1 h with rfl | h
                     · exact .inr ⟨rfl, hv⟩
                     · exact .inl (by simp [h])
      · rcases List.mem_cons.1 h with rfl | h
        · exact .inl (by simp)
        · rcases ih h with h | h
          · exact .inl (by simp [h])
          · exact .inr h

/-- A write keeps the canonical form. -/
theorem Mem.wf_write {m : Mem} (h : Mem.wf m) (a : Nat) (v : Byte) : Mem.wf (Mem.write m a v) := by
  refine ⟨?_, fun c hc => ?_⟩
  · induction m with
    | nil => simp only [Mem.write]; split <;> simp
    | cons c m ih =>
      obtain ⟨k, w⟩ := c
      have hlt := Mem.wf_head_lt h
      have ht := Mem.wf_tail h
      simp only [Mem.write]
      split
      · split
        · exact h.1
        · next hk _ =>
          refine List.pairwise_cons.2 ⟨fun d hd => ?_, h.1⟩
          rcases List.mem_cons.1 hd with rfl | hd
          · exact hk
          · have := hlt d hd; simp only at this ⊢; omega
      · split
        · next hk =>
          subst hk
          split
          · exact ht.1
          · exact List.pairwise_cons.2 ⟨hlt, ht.1⟩
        · next h1 h2 =>
          refine List.pairwise_cons.2 ⟨fun d hd => ?_, ih ht⟩
          rcases Mem.mem_write hd with hd | ⟨rfl, _⟩
          · exact hlt d hd
          · simp only; omega
  · rcases Mem.mem_write hc with hc | ⟨rfl, hv⟩
    · exact h.2 c hc
    · exact hv

/-- A write inside a window keeps a memory inside it. -/
theorem Mem.within_write {m : Mem} {base size : Nat} (h : Mem.within m base size) {a : Nat} (v : Byte)
    (ha : base ≤ a ∧ a < base + size) : Mem.within (Mem.write m a v) base size := by
  intro c hc
  rcases Mem.mem_write hc with hc | ⟨rfl, _⟩
  · exact h c hc
  · exact ha

/-- A listed address of a canonical memory reads as its entry. -/
theorem Mem.read_of_mem {m : Mem} (h : Mem.wf m) {c : Host.Cell} (hc : c ∈ m) : Mem.read m c.1 = c.2 := by
  induction m with
  | nil => simp at hc
  | cons d m ih =>
    have hlt := Mem.wf_head_lt h
    simp only [Mem.read]
    rcases List.mem_cons.1 hc with rfl | hc
    · simp
    · rw [if_neg (by have := hlt c hc; omega), ih (Mem.wf_tail h) hc]

/-- An address without an entry is unlisted. -/
theorem Mem.read_of_forall_ne {m : Mem} {a : Nat} (h : ∀ c ∈ m, c.1 ≠ a) : Mem.read m a = unlisted a := by
  induction m with
  | nil => rfl
  | cons c m ih =>
    simp only [Mem.read]
    rw [if_neg (h c (by simp)), ih fun d hd => h d (by simp [hd])]

/-- Two canonical memories that read the same everywhere are the same data. -/
theorem Mem.ext_read {m n : Mem} (hm : Mem.wf m) (hn : Mem.wf n) (h : ∀ a, Mem.read m a = Mem.read n a) :
    m = n := by
  induction m generalizing n with
  | nil =>
    cases n with
    | nil => rfl
    | cons c n =>
      have h1 := Mem.read_of_mem hn (c := c) (by simp)
      exact absurd (h1.symm.trans (h c.1).symm) (hn.2 c (by simp))
  | cons c m ih =>
    cases n with
    | nil =>
      have h1 := Mem.read_of_mem hm (c := c) (by simp)
      exact absurd (h1.symm.trans (h c.1)) (hm.2 c (by simp))
    | cons d n =>
      have hcm := Mem.read_of_mem hm (c := c) (by simp)
      have hdn := Mem.read_of_mem hn (c := d) (by simp)
      have lower : ∀ {e f : Host.Cell} {p q : Mem}, Mem.wf (e :: p) → Mem.wf (f :: q) →
          (∀ a, Mem.read (e :: p) a = Mem.read (f :: q) a) → ¬ e.1 < f.1 := by
        intro e f p q he hf hr hlt
        have h1 := Mem.read_of_mem he (c := e) (by simp)
        have h2 : Mem.read (f :: q) e.1 = unlisted e.1 := by
          refine Mem.read_below fun g hg => ?_
          rcases List.mem_cons.1 hg with rfl | hg
          · exact hlt
          · have := Mem.wf_head_lt hf g hg; omega
        exact he.2 e (by simp) (h1.symm.trans ((hr e.1).trans h2))
      have hk : c.1 = d.1 := by
        have := lower hm hn h
        have := lower hn hm fun a => (h a).symm
        omega
      have hv : c.2 = d.2 := by rw [← hcm, ← hdn, h, hk]
      have hcd : c = d := Prod.ext hk hv
      subst hcd
      rw [ih (Mem.wf_tail hm) (Mem.wf_tail hn) fun a => ?_]
      have ha := h a
      simp only [Mem.read] at ha
      by_cases hca : c.1 = a
      · subst hca
        rw [Mem.read_below (Mem.wf_head_lt hm), Mem.read_below (Mem.wf_head_lt hn)]
      · simpa [hca] using ha

end Sys2Proof.Machine
end

