-- ==== Sys2Proof/Laws/State.lean ====
section
/-! SUPPORT. One lemma per field for each primitive update of the state, each true by rfl, so that no proof unfolds an
update. -/

namespace Sys2Proof.Machine

/-! ### record of an event -/

@[simp] theorem State.record_cfg (e : Event) (s : State) : (s.record e).cfg = s.cfg := rfl
@[simp] theorem State.record_x (e : Event) (s : State) : (s.record e).x = s.x := rfl
@[simp] theorem State.record_y (e : Event) (s : State) : (s.record e).y = s.y := rfl
@[simp] theorem State.record_attr (e : Event) (s : State) : (s.record e).attr = s.attr := rfl
@[simp] theorem State.record_initDone (e : Event) (s : State) : (s.record e).initDone = s.initDone := rfl
@[simp] theorem State.record_mem (e : Event) (s : State) : (s.record e).mem = s.mem := rfl
@[simp] theorem State.record_crtcIdx (e : Event) (s : State) : (s.record e).crtcIdx = s.crtcIdx := rfl
@[simp] theorem State.record_crtcReg (e : Event) (s : State) : (s.record e).crtcReg = s.crtcReg := rfl
@[simp] theorem State.record_gdt (e : Event) (s : State) : (s.record e).gdt = s.gdt := rfl
@[simp] theorem State.record_gdtLen (e : Event) (s : State) : (s.record e).gdtLen = s.gdtLen := rfl
@[simp] theorem State.record_turns (e : Event) (s : State) : (s.record e).turns = s.turns := rfl
@[simp] theorem State.record_displayIn (e : Event) (s : State) : (s.record e).displayIn = s.displayIn := rfl
@[simp] theorem State.record_requestIn (e : Event) (s : State) : (s.record e).requestIn = s.requestIn := rfl
@[simp] theorem State.record_result (e : Event) (s : State) : (s.record e).result = s.result := rfl
@[simp] theorem State.record_log (e : Event) (s : State) : (s.record e).log = e :: s.log := rfl

/-! ### cellWrite -/

@[simp] theorem cellWrite_cfg (i : Nat) (v : CellWord) (s : State) : (cellWrite i v s).cfg = s.cfg := rfl
@[simp] theorem cellWrite_x (i : Nat) (v : CellWord) (s : State) : (cellWrite i v s).x = s.x := rfl
@[simp] theorem cellWrite_y (i : Nat) (v : CellWord) (s : State) : (cellWrite i v s).y = s.y := rfl
@[simp] theorem cellWrite_attr (i : Nat) (v : CellWord) (s : State) : (cellWrite i v s).attr = s.attr := rfl
@[simp] theorem cellWrite_initDone (i : Nat) (v : CellWord) (s : State) : (cellWrite i v s).initDone = s.initDone := rfl
@[simp] theorem cellWrite_mem (i : Nat) (v : CellWord) (s : State) : (cellWrite i v s).mem = storeCell s.mem (cellAddr s.cfg i) v := rfl
@[simp] theorem cellWrite_crtcIdx (i : Nat) (v : CellWord) (s : State) : (cellWrite i v s).crtcIdx = s.crtcIdx := rfl
@[simp] theorem cellWrite_crtcReg (i : Nat) (v : CellWord) (s : State) : (cellWrite i v s).crtcReg = s.crtcReg := rfl
@[simp] theorem cellWrite_gdt (i : Nat) (v : CellWord) (s : State) : (cellWrite i v s).gdt = s.gdt := rfl
@[simp] theorem cellWrite_gdtLen (i : Nat) (v : CellWord) (s : State) : (cellWrite i v s).gdtLen = s.gdtLen := rfl
@[simp] theorem cellWrite_turns (i : Nat) (v : CellWord) (s : State) : (cellWrite i v s).turns = s.turns := rfl
@[simp] theorem cellWrite_displayIn (i : Nat) (v : CellWord) (s : State) : (cellWrite i v s).displayIn = s.displayIn := rfl
@[simp] theorem cellWrite_requestIn (i : Nat) (v : CellWord) (s : State) : (cellWrite i v s).requestIn = s.requestIn := rfl
@[simp] theorem cellWrite_result (i : Nat) (v : CellWord) (s : State) : (cellWrite i v s).result = s.result := rfl
@[simp] theorem cellWrite_log (i : Nat) (v : CellWord) (s : State) : (cellWrite i v s).log = .cellWrite i v :: s.log := rfl

/-! ### portWrite_index -/

@[simp] theorem portWrite_index_cfg (b : Byte) (s : State) : (portWrite .index b s).cfg = s.cfg := rfl
@[simp] theorem portWrite_index_x (b : Byte) (s : State) : (portWrite .index b s).x = s.x := rfl
@[simp] theorem portWrite_index_y (b : Byte) (s : State) : (portWrite .index b s).y = s.y := rfl
@[simp] theorem portWrite_index_attr (b : Byte) (s : State) : (portWrite .index b s).attr = s.attr := rfl
@[simp] theorem portWrite_index_initDone (b : Byte) (s : State) : (portWrite .index b s).initDone = s.initDone := rfl
@[simp] theorem portWrite_index_mem (b : Byte) (s : State) : (portWrite .index b s).mem = s.mem := rfl
@[simp] theorem portWrite_index_crtcIdx (b : Byte) (s : State) : (portWrite .index b s).crtcIdx = b := rfl
@[simp] theorem portWrite_index_crtcReg (b : Byte) (s : State) : (portWrite .index b s).crtcReg = s.crtcReg := rfl
@[simp] theorem portWrite_index_gdt (b : Byte) (s : State) : (portWrite .index b s).gdt = s.gdt := rfl
@[simp] theorem portWrite_index_gdtLen (b : Byte) (s : State) : (portWrite .index b s).gdtLen = s.gdtLen := rfl
@[simp] theorem portWrite_index_turns (b : Byte) (s : State) : (portWrite .index b s).turns = s.turns := rfl
@[simp] theorem portWrite_index_displayIn (b : Byte) (s : State) : (portWrite .index b s).displayIn = s.displayIn := rfl
@[simp] theorem portWrite_index_requestIn (b : Byte) (s : State) : (portWrite .index b s).requestIn = s.requestIn := rfl
@[simp] theorem portWrite_index_result (b : Byte) (s : State) : (portWrite .index b s).result = s.result := rfl
@[simp] theorem portWrite_index_log (b : Byte) (s : State) : (portWrite .index b s).log = .portWrite s.cfg.crtcIndex b :: s.log := rfl

/-! ### portWrite_data -/

@[simp] theorem portWrite_data_cfg (b : Byte) (s : State) : (portWrite .data b s).cfg = s.cfg := rfl
@[simp] theorem portWrite_data_x (b : Byte) (s : State) : (portWrite .data b s).x = s.x := rfl
@[simp] theorem portWrite_data_y (b : Byte) (s : State) : (portWrite .data b s).y = s.y := rfl
@[simp] theorem portWrite_data_attr (b : Byte) (s : State) : (portWrite .data b s).attr = s.attr := rfl
@[simp] theorem portWrite_data_initDone (b : Byte) (s : State) : (portWrite .data b s).initDone = s.initDone := rfl
@[simp] theorem portWrite_data_mem (b : Byte) (s : State) : (portWrite .data b s).mem = s.mem := rfl
@[simp] theorem portWrite_data_crtcIdx (b : Byte) (s : State) : (portWrite .data b s).crtcIdx = s.crtcIdx := rfl
@[simp] theorem portWrite_data_crtcReg (b : Byte) (s : State) : (portWrite .data b s).crtcReg = Mem.write s.crtcReg s.crtcIdx.toNat b := rfl
@[simp] theorem portWrite_data_gdt (b : Byte) (s : State) : (portWrite .data b s).gdt = s.gdt := rfl
@[simp] theorem portWrite_data_gdtLen (b : Byte) (s : State) : (portWrite .data b s).gdtLen = s.gdtLen := rfl
@[simp] theorem portWrite_data_turns (b : Byte) (s : State) : (portWrite .data b s).turns = s.turns := rfl
@[simp] theorem portWrite_data_displayIn (b : Byte) (s : State) : (portWrite .data b s).displayIn = s.displayIn := rfl
@[simp] theorem portWrite_data_requestIn (b : Byte) (s : State) : (portWrite .data b s).requestIn = s.requestIn := rfl
@[simp] theorem portWrite_data_result (b : Byte) (s : State) : (portWrite .data b s).result = s.result := rfl
@[simp] theorem portWrite_data_log (b : Byte) (s : State) : (portWrite .data b s).log = .portWrite s.cfg.crtcData b :: s.log := rfl

/-! ### pushOffset -/

@[simp] theorem pushOffset_cfg (off : BitVec 16) (s : State) : (pushOffset off s).cfg = s.cfg := rfl
@[simp] theorem pushOffset_x (off : BitVec 16) (s : State) : (pushOffset off s).x = s.x := rfl
@[simp] theorem pushOffset_y (off : BitVec 16) (s : State) : (pushOffset off s).y = s.y := rfl
@[simp] theorem pushOffset_attr (off : BitVec 16) (s : State) : (pushOffset off s).attr = s.attr := rfl
@[simp] theorem pushOffset_initDone (off : BitVec 16) (s : State) : (pushOffset off s).initDone = s.initDone := rfl
@[simp] theorem pushOffset_mem (off : BitVec 16) (s : State) : (pushOffset off s).mem = s.mem := rfl
@[simp] theorem pushOffset_crtcIdx (off : BitVec 16) (s : State) : (pushOffset off s).crtcIdx = 0x0E#8 := rfl
@[simp] theorem pushOffset_crtcReg (off : BitVec 16) (s : State) : (pushOffset off s).crtcReg = Mem.write (Mem.write s.crtcReg 0x0F (off.extractLsb' 0 8)) 0x0E (off.extractLsb' 8 8) := rfl
@[simp] theorem pushOffset_gdt (off : BitVec 16) (s : State) : (pushOffset off s).gdt = s.gdt := rfl
@[simp] theorem pushOffset_gdtLen (off : BitVec 16) (s : State) : (pushOffset off s).gdtLen = s.gdtLen := rfl
@[simp] theorem pushOffset_turns (off : BitVec 16) (s : State) : (pushOffset off s).turns = s.turns := rfl
@[simp] theorem pushOffset_displayIn (off : BitVec 16) (s : State) : (pushOffset off s).displayIn = s.displayIn := rfl
@[simp] theorem pushOffset_requestIn (off : BitVec 16) (s : State) : (pushOffset off s).requestIn = s.requestIn := rfl
@[simp] theorem pushOffset_result (off : BitVec 16) (s : State) : (pushOffset off s).result = s.result := rfl
@[simp] theorem pushOffset_log (off : BitVec 16) (s : State) : (pushOffset off s).log = (pushEvents s.cfg off).reverse ++ s.log := rfl

end Sys2Proof.Machine
end

