-- ==== Sys2Proof/Laws/Ops.lean ====
section
/-! SUPPORT. One lemma for each shared operation that says what it does. -/

namespace Sys2Proof.Machine

/-! ### Values -/

@[simp] theorem charByte_cellOf (a b : Byte) : charByte (cellOf a b) = b :=
  BitVec.extractLsb'_append_eq_right

@[simp] theorem attrByte_cellOf (a b : Byte) : attrByte (cellOf a b) = a :=
  BitVec.extractLsb'_append_eq_left

/-- A cell is its attribute byte above its character byte (10_state.md R14). -/
theorem attrByte_append_charByte (v : CellWord) : (attrByte v ++ charByte v : BitVec (8 + 8)) = v := by
  apply BitVec.eq_of_getElem_eq
  intro i hi
  simp only [attrByte, charByte, BitVec.getElem_append, BitVec.getElem_extractLsb']
  split
  · simp [BitVec.getLsbD_eq_getElem, hi]
  · rw [show 8 + (i - 8) = i by omega]; simp [BitVec.getLsbD_eq_getElem, hi]

/-- The index of an in-range position is a cell of the screen (20_memory.md R30). -/
theorem cellIndex_lt {r c : Nat} (hr : r < 25) (hc : c < 80) : cellIndex r c < 2000 := by
  unfold cellIndex; omega

@[simp] theorem linearOffset_toNat (x y : Nat) : (linearOffset x y).toNat = (y * 80 + x) % 65536 := rfl

/-- The two bytes of an offset put back together (42_cursor_protocol.md R100, 10_state.md R19). -/
theorem offset_bytes (off : BitVec 16) :
    (off.extractLsb' 8 8 ++ off.extractLsb' 0 8 : BitVec (8 + 8)) = off := attrByte_append_charByte off

/-! ### Cells -/

/-- The byte address of a cell determines it. -/
theorem cellAddr_inj {cfg : Config} {i j : Nat} (h : cellAddr cfg i = cellAddr cfg j) : i = j := by
  unfold cellAddr at h; omega

/-- A cell write changes only the two bytes of its cell. -/
theorem read_storeCell_other (m : Mem) {a b : Nat} (v : CellWord) (h : b ≠ a) (h' : b ≠ a + 1) :
    Mem.read (storeCell m a v) b = Mem.read m b := by
  rw [storeCell, Mem.read_write_other _ _ h', Mem.read_write_other _ _ h]

/-- The lower byte of a cell just written is its character byte (20_memory.md R32). -/
theorem read_storeCell_low {m : Mem} (h : Mem.wf m) (a : Nat) (v : CellWord) :
    Mem.read (storeCell m a v) a = charByte v := by
  rw [storeCell, Mem.read_write_other _ _ (by omega), Mem.read_write_same h]

/-- The upper byte of a cell just written is its attribute byte (20_memory.md R32). -/
theorem read_storeCell_high {m : Mem} (h : Mem.wf m) (a : Nat) (v : CellWord) :
    Mem.read (storeCell m a v) (a + 1) = attrByte v := by
  rw [storeCell, Mem.read_write_same (Mem.wf_write h _ _)]

/-- A cell write keeps the canonical form. -/
theorem wf_storeCell {m : Mem} (h : Mem.wf m) (a : Nat) (v : CellWord) : Mem.wf (storeCell m a v) :=
  Mem.wf_write (Mem.wf_write h _ _) _ _

/-- A write to a cell of the screen stays inside the display memory. -/
theorem within_storeCell {m : Mem} {cfg : Config} (h : Mem.within m cfg.vgaBase 4000) {i : Nat} (hi : i < 2000)
    (v : CellWord) : Mem.within (storeCell m (cellAddr cfg i) v) cfg.vgaBase 4000 := by
  unfold storeCell cellAddr
  exact Mem.within_write (Mem.within_write h _ (by omega)) _ (by omega)

/-- Read after write of the same cell (20_memory.md R31). -/
theorem cell_cellWrite_same {s : State} (h : Mem.wf s.mem) (i : Nat) (v : CellWord) :
    (cellWrite i v s).cell i = v := by
  simp only [State.cell, cellWrite_cfg, cellWrite_mem]
  rw [read_storeCell_low h, read_storeCell_high h]
  exact attrByte_append_charByte v

/-- A cell write leaves every other cell as it was. -/
theorem cell_cellWrite_other (s : State) {i j : Nat} (v : CellWord) (h : j ≠ i) :
    (cellWrite i v s).cell j = s.cell j := by
  simp only [State.cell, cellWrite_cfg, cellWrite_mem, cellAddr]
  rw [read_storeCell_other _ _ (by omega) (by omega), read_storeCell_other _ _ (by omega) (by omega)]

/-- A cell is a function of the platform and the display memory. -/
theorem cell_congr {s t : State} (hc : t.cfg = s.cfg) (hm : t.mem = s.mem) (i : Nat) : t.cell i = s.cell i := by
  simp only [State.cell, hc, hm]

/-- The hardware cursor is a function of the CRT controller's registers. -/
theorem hwCursor_congr {s t : State} (h : t.crtcReg = s.crtcReg) : t.hwCursor = s.hwCursor := by
  simp only [State.hwCursor, h]

/-! ### Pushes -/

/-- A push sets the hardware cursor to its offset (42_cursor_protocol.md R100, 10_state.md R18, R19). -/
theorem hwCursor_pushOffset {s : State} (h : Mem.wf s.crtcReg) (off : BitVec 16) :
    (pushOffset off s).hwCursor = off := by
  simp only [State.hwCursor, pushOffset_crtcReg]
  rw [Mem.read_write_same (Mem.wf_write h _ _), Mem.read_write_other _ _ (by decide), Mem.read_write_same h]
  exact offset_bytes off

/-- Out of bounds, `set_position` does nothing (42_cursor_protocol.md R100). -/
theorem setPosition_outOfBounds {x y : Nat} (h : OutOfBounds y x) (s : State) : setPosition x y s = s :=
  if_pos h

/-- In bounds, `set_position` is a push (42_cursor_protocol.md R100). -/
theorem setPosition_inBounds {x y : Nat} (hx : x < 80) (hy : y < 25) (s : State) :
    setPosition x y s = pushOffset (linearOffset x y) s := if_neg (by unfold OutOfBounds; omega)

/-- `set_position` drives the CRT controller and nothing else (42_cursor_protocol.md R100). -/
theorem setPosition_frame (x y : Nat) (s : State) :
    setPosition x y s =
      { s with
        crtcIdx := (setPosition x y s).crtcIdx
        crtcReg := (setPosition x y s).crtcReg
        log := (setPosition x y s).log } := by
  unfold setPosition; split <;> rfl

/-- Out of bounds, `write_cell_at` reports it and writes nothing (40_display_cell_ops.md R73). -/
theorem writeCellAt_outOfBounds {row col : Nat} (h : OutOfBounds row col) (byte : Byte) (s : State) :
    writeCellAt row col byte s = (true, s) := if_pos h

/-- In bounds, `write_cell_at` writes one cell (40_display_cell_ops.md R73). -/
theorem writeCellAt_inBounds {row col : Nat} (hr : row < 25) (hc : col < 80) (byte : Byte) (s : State) :
    writeCellAt row col byte s = (false, cellWrite (cellIndex row col) (cellOf s.attr byte) s) :=
  if_neg (by unfold OutOfBounds; omega)

/-! ### Positions -/

/-- In range, the next position is in range. -/
theorem nextPosition_inRange {x : BitVec 7} {y : BitVec 5} (hx : x.toNat < 80) (hy : y.toNat < 25) :
    (nextPosition x y).1.toNat < 80 ∧ (nextPosition x y).2.toNat < 25 := by
  unfold nextPosition
  split
  · constructor
    · simp
    · split
      · simp
      · bv_omega
  · constructor <;> bv_omega

/-- In range, the offset of the next position is the successor modulo 2000 (41_display_position.md R90). -/
theorem nextPosition_offset {x : BitVec 7} {y : BitVec 5} (hx : x.toNat < 80) (hy : y.toNat < 25) :
    (nextPosition x y).2.toNat * 80 + (nextPosition x y).1.toNat = (y.toNat * 80 + x.toNat + 1) % 2000 := by
  unfold nextPosition
  split
  · split <;> bv_omega
  · bv_omega

@[simp] theorem advance_x (s : State) : (advance s).x = (nextPosition s.x s.y).1 := by
  unfold advance; rw [setPosition_frame]

@[simp] theorem advance_y (s : State) : (advance s).y = (nextPosition s.x s.y).2 := by
  unfold advance; rw [setPosition_frame]

/-- `advance` moves the position and drives the CRT controller, nothing else (41_display_position.md R90). -/
theorem advance_frame (s : State) :
    advance s =
      { s with
        x := (nextPosition s.x s.y).1
        y := (nextPosition s.x s.y).2
        crtcIdx := (advance s).crtcIdx
        crtcReg := (advance s).crtcReg
        log := (advance s).log } := by
  unfold advance; rw [setPosition_frame]

/-- In range, `advance` is the next position and a push of it (41_display_position.md R90). -/
theorem advance_inRange {s : State} (h : s.PositionInRange) :
    advance s =
      pushOffset (linearOffset (nextPosition s.x s.y).1.toNat (nextPosition s.x s.y).2.toNat)
        { s with x := (nextPosition s.x s.y).1, y := (nextPosition s.x s.y).2 } := by
  have hn := nextPosition_inRange h.1 h.2
  unfold advance
  rw [setPosition_inBounds hn.1 hn.2]

/-! ### The row scan -/

/-- The scan stays within its columns, or answers 0. -/
theorem scanRow_le (r n : Nat) (s : State) : (scanRow r n s).1 ≤ n - 1 := by
  induction n generalizing s with
  | zero => simp [scanRow]
  | succ c ih =>
    simp only [scanRow]
    split
    · have := ih (s.record (.cellRead (cellIndex r c))); omega
    · simp

/-- The scan records its reads and changes nothing else (41_display_position.md R92). -/
theorem scanRow_state (r n : Nat) (s : State) :
    (scanRow r n s).2 = { s with log := (scanReads r (scanRow r n s).1 n).reverse ++ s.log } := by
  induction n generalizing s with
  | zero => simp [scanRow, scanReads]
  | succ c ih =>
    simp only [scanRow]
    split
    · rw [ih]
      have hle := scanRow_le r c (s.record (.cellRead (cellIndex r c)))
      generalize (scanRow r c (s.record (.cellRead (cellIndex r c)))).1 = d at *
      have : scanReads r d (c + 1) = .cellRead (cellIndex r c) :: scanReads r d c := by
        unfold scanReads
        by_cases hd : d ≤ c
        · rw [show c + 1 - d = (c - d) + 1 by omega, List.range'_1_concat, show d + (c - d) = c by omega]
          simp
        · omega
      simp [this, State.record]
    · simp [scanReads, State.record]

/-- What a row scan answers: the last non-blank column, or 0 (41_display_position.md R92). -/
theorem scanRow_spec (r n : Nat) (s : State) :
    ((scanRow r n s).1 < n ∧ isBlank (s.cell (cellIndex r (scanRow r n s).1)) = false ∧
      ∀ d, (scanRow r n s).1 < d → d < n → isBlank (s.cell (cellIndex r d)) = true) ∨
    ((scanRow r n s).1 = 0 ∧ ∀ d, d < n → isBlank (s.cell (cellIndex r d)) = true) := by
  induction n generalizing s with
  | zero => right; simp [scanRow]
  | succ c ih =>
    simp only [scanRow]
    split
    · next hb =>
      have hcell : ∀ i, (s.record (.cellRead (cellIndex r c))).cell i = s.cell i :=
        fun i => cell_congr rfl rfl i
      rcases ih (s.record (.cellRead (cellIndex r c))) with ⟨h1, h2, h3⟩ | ⟨h1, h2⟩
      · refine .inl ⟨by omega, by rw [← h2, hcell], fun d hd hdn => ?_⟩
        by_cases hdc : d = c
        · subst hdc; exact hb
        · rw [← hcell]; exact h3 d hd (by omega)
      · refine .inr ⟨h1, fun d hd => ?_⟩
        by_cases hdc : d = c
        · subst hdc; exact hb
        · rw [← hcell]; exact h2 d (by omega)
    · next hb => exact .inl ⟨by simp, by simpa using hb, fun d hd hdn => by simp only at hd; omega⟩

end Sys2Proof.Machine
end

