-- ==== Sys2Proof/Laws/Actions.lean ====
section
/-! SUPPORT. What a step can do, said once: every operation is a sequence of a few primitive actions. Each rule about the
whole machine then needs one check per primitive action, not one per operation. -/

namespace Sys2Proof.Machine

/-- The primitive actions of the display unit. -/
inductive Action where
  | moveTo (x : BitVec 7) (y : BitVec 5)
  | colour (attr : Byte)
  | begin
  | store (i : Nat) (v : CellWord)
  | look (i : Nat)
  | push (off : BitVec 16)

/-- What an action does to the state. -/
def Action.run : Action → State → State
  | .moveTo x y, s => { s with x := x, y := y }
  | .colour a, s => { s with attr := a }
  | .begin, s => { s with initDone := true }
  | .store i v, s => cellWrite i v s
  | .look i, s => s.record (.cellRead i)
  | .push off, s => pushOffset off s

/-- The events of an action. -/
def Action.events (cfg : Config) : Action → List Event
  | .moveTo _ _ => []
  | .colour _ => []
  | .begin => []
  | .store i v => [.cellWrite i v]
  | .look i => [.cellRead i]
  | .push off => pushEvents cfg off

/-- The action stays on the screen. -/
def Action.Legal : Action → Prop
  | .moveTo _ _ => True
  | .colour _ => True
  | .begin => True
  | .store i _ => i < 2000
  | .look i => i < 2000
  | .push off => off.toNat < 2000

/-- A sequence of actions, first action first. -/
def runActions (as : List Action) (s : State) : State := as.foldl (fun s a => a.run s) s

/-- `t` comes from `s` by legal actions alone. -/
def Does (s t : State) : Prop := ∃ as : List Action, (∀ a ∈ as, a.Legal) ∧ t = runActions as s

theorem Does.refl (s : State) : Does s s := ⟨[], by simp, rfl⟩

theorem Does.trans {s t u : State} (h : Does s t) (h' : Does t u) : Does s u := by
  obtain ⟨as, ha, rfl⟩ := h
  obtain ⟨bs, hb, rfl⟩ := h'
  refine ⟨as ++ bs, fun a h => ?_, by simp [runActions]⟩
  rcases List.mem_append.1 h with h | h
  · exact ha a h
  · exact hb a h

theorem Does.one {a : Action} (h : a.Legal) (s : State) : Does s (a.run s) := ⟨[a], by simpa using h, rfl⟩

/-- A property every legal action keeps is kept by legal actions. -/
theorem Does.keeps {P : State → Prop} (hP : ∀ a s, Action.Legal a → P s → P (a.run s)) {s t : State} (h : Does s t)
    (hs : P s) : P t := by
  obtain ⟨as, ha, rfl⟩ := h
  induction as generalizing s with
  | nil => exact hs
  | cons a as ih => exact ih (hP a s (ha a (by simp)) hs) fun b hb => ha b (by simp [hb])

theorem does_setPosition (x y : Nat) (s : State) : Does s (setPosition x y s) := by
  by_cases h : OutOfBounds y x
  · rw [setPosition_outOfBounds h]; exact .refl s
  · rw [setPosition_inBounds (by unfold OutOfBounds at h; omega) (by unfold OutOfBounds at h; omega)]
    refine Does.one (a := .push (linearOffset x y)) ?_ s
    unfold OutOfBounds at h
    simp only [Action.Legal, linearOffset_toNat]
    rw [Nat.mod_eq_of_lt (by omega)]
    omega

theorem does_writeCellAt (row col : Nat) (byte : Byte) (s : State) : Does s (writeCellAt row col byte s).2 := by
  by_cases h : OutOfBounds row col
  · rw [writeCellAt_outOfBounds h]; exact .refl s
  · unfold OutOfBounds at h
    rw [writeCellAt_inBounds (by omega) (by omega)]
    exact Does.one (a := .store _ _) (cellIndex_lt (by omega) (by omega)) s

theorem does_advance (s : State) : Does s (advance s) :=
  .trans (.one (a := .moveTo _ _) trivial s) (does_setPosition _ _ _)

theorem does_scanRow {r : Nat} (hr : r < 25) {n : Nat} (hn : n ≤ 80) (s : State) : Does s (scanRow r n s).2 := by
  induction n generalizing s with
  | zero => exact .refl s
  | succ c ih =>
    have h1 : Does s (s.record (.cellRead (cellIndex r c))) :=
      .one (a := .look _) (cellIndex_lt hr (by omega)) s
    simp only [scanRow]
    split
    · exact h1.trans (ih (by omega) _)
    · exact h1

theorem does_retreat {s t : State} (h : retreat s = .ok t) : Does s t := by
  unfold retreat at h
  split at h
  · cases h; exact .refl s
  · split at h
    · split at h
      · cases h
      · next hscan =>
        cases h
        unfold lastNonblankColumn at hscan
        split at hscan
        · next hr =>
          have := does_scanRow hr (Nat.le_refl 80) s
          injection hscan with hscan
          rw [hscan] at this
          exact (this.trans (.one (a := .moveTo _ _) trivial _)).trans (does_setPosition _ _ _)
        · cases hscan
    · cases h
      exact .trans (.one (a := .moveTo (s.x - 1#7) s.y) trivial s) (does_setPosition _ _ _)

theorem does_writeChar (byte : Byte) (s : State) : Does s (writeChar byte s) :=
  (does_writeCellAt _ _ _ s).trans (does_advance _)

theorem does_writeBytes (l : List Byte) (s : State) : Does s (writeBytes l s) := by
  induction l generalizing s with
  | nil => exact .refl s
  | cons b bs ih =>
    simp only [writeBytes]
    split
    · exact .refl s
    · exact (does_writeChar b s).trans (ih _)

theorem does_advanceUntilRowChanges (y0 : BitVec 5) (n : Nat) (s : State) :
    Does s (advanceUntilRowChanges y0 n s) := by
  induction n generalizing s with
  | zero => exact .refl s
  | succ n ih =>
    simp only [advanceUntilRowChanges]
    split
    · exact (does_advance s).trans (ih _)
    · exact does_advance s

theorem does_clearLoop (s : State) : Does s (clearLoop s) := by
  unfold clearLoop
  generalize gridCells = l
  induction l generalizing s with
  | nil => exact .refl s
  | cons rc l ih => exact (does_writeCellAt rc.1 rc.2 0#8 s).trans (ih _)

end Sys2Proof.Machine
end

