-- ==== Sys2Proof/Laws/Clear.lean ====
section
/-! SUPPORT. What `clear_screen` does, and that it is the loop of 40_display_cell_ops.md R75. -/

namespace Sys2Proof.Machine

/-- The cells of the grid in order are the cells 0 to 1999 (20_memory.md R30). -/
theorem gridCells_indexes : gridCells.map (fun rc => cellIndex rc.1 rc.2) = List.range 2000 := by decide +kernel

/-- Every pair of the grid is in range. -/
theorem gridCells_inRange : ∀ rc ∈ gridCells, rc.1 < 25 ∧ rc.2 < 80 := by
  intro rc h
  simp only [gridCells, List.mem_flatMap, List.mem_map, List.mem_range] at h
  obtain ⟨r, hr, c, hc, rfl⟩ := h
  exact ⟨hr, hc⟩

/-- One value written to each of a list of cells, the last of the list first. -/
def storeCells (cfg : Config) (v : CellWord) (l : List Nat) (m : Mem) : Mem :=
  l.foldr (fun i m => storeCell m (cellAddr cfg i) v) m

@[simp] theorem clearScreen_cfg (s : State) : (clearScreen s).cfg = s.cfg := by simp only [clearScreen]
@[simp] theorem clearScreen_x (s : State) : (clearScreen s).x = s.x := by simp only [clearScreen]
@[simp] theorem clearScreen_y (s : State) : (clearScreen s).y = s.y := by simp only [clearScreen]
@[simp] theorem clearScreen_attr (s : State) : (clearScreen s).attr = s.attr := by simp only [clearScreen]
@[simp] theorem clearScreen_initDone (s : State) : (clearScreen s).initDone = s.initDone := by simp only [clearScreen]
@[simp] theorem clearScreen_crtcIdx (s : State) : (clearScreen s).crtcIdx = s.crtcIdx := by simp only [clearScreen]
@[simp] theorem clearScreen_crtcReg (s : State) : (clearScreen s).crtcReg = s.crtcReg := by simp only [clearScreen]
@[simp] theorem clearScreen_gdt (s : State) : (clearScreen s).gdt = s.gdt := by simp only [clearScreen]
@[simp] theorem clearScreen_gdtLen (s : State) : (clearScreen s).gdtLen = s.gdtLen := by simp only [clearScreen]
@[simp] theorem clearScreen_turns (s : State) : (clearScreen s).turns = s.turns := by simp only [clearScreen]
@[simp] theorem clearScreen_displayIn (s : State) : (clearScreen s).displayIn = s.displayIn := by simp only [clearScreen]
@[simp] theorem clearScreen_requestIn (s : State) : (clearScreen s).requestIn = s.requestIn := by simp only [clearScreen]
@[simp] theorem clearScreen_result (s : State) : (clearScreen s).result = s.result := by simp only [clearScreen]

/-- What memory holds after one value is written to each of a list of cells. -/
theorem storeCells_spec (cfg : Config) (v : CellWord) (l : List Nat) {m : Mem} (h : Mem.wf m) :
    Mem.wf (storeCells cfg v l m) ∧
    ∀ a, Mem.read (storeCells cfg v l m) a =
      if ∃ i ∈ l, a = cellAddr cfg i then charByte v
      else if ∃ i ∈ l, a = cellAddr cfg i + 1 then attrByte v else Mem.read m a := by
  induction l with
  | nil => exact ⟨h, by simp [storeCells]⟩
  | cons i l ih =>
    refine ⟨wf_storeCell ih.1 _ _, fun a => ?_⟩
    show Mem.read (storeCell (storeCells cfg v l m) (cellAddr cfg i) v) a = _
    by_cases h1 : a = cellAddr cfg i
    · subst h1
      rw [read_storeCell_low ih.1, if_pos ⟨i, by simp, rfl⟩]
    · by_cases h2 : a = cellAddr cfg i + 1
      · subst h2
        have hne : ¬∃ j ∈ i :: l, cellAddr cfg i + 1 = cellAddr cfg j := by
          rintro ⟨j, -, hj⟩; unfold cellAddr at hj; omega
        rw [read_storeCell_high ih.1, if_neg hne, if_pos ⟨i, by simp, rfl⟩]
      · rw [read_storeCell_other _ _ h1 h2, ih.2 a]
        simp [h1, h2]

/-- A window that holds the display memory still does after cells of the screen are written. -/
theorem within_storeCells {cfg : Config} {m : Mem} (h : Mem.within m cfg.vgaBase 4000) (v : CellWord) {l : List Nat}
    (hl : ∀ i ∈ l, i < 2000) : Mem.within (storeCells cfg v l m) cfg.vgaBase 4000 := by
  induction l with
  | nil => exact h
  | cons i l ih => exact within_storeCell (ih fun j hj => hl j (by simp [hj])) (hl i (by simp)) v

/-- The order in which the cells are written does not matter. -/
theorem storeCells_reverse (cfg : Config) (v : CellWord) (l : List Nat) {m : Mem} (h : Mem.wf m) :
    storeCells cfg v l.reverse m = storeCells cfg v l m := by
  refine Mem.ext_read (storeCells_spec cfg v _ h).1 (storeCells_spec cfg v _ h).1 fun a => ?_
  rw [(storeCells_spec cfg v _ h).2, (storeCells_spec cfg v _ h).2]
  simp only [List.mem_reverse]

/-- The entries of the grid's bytes. -/
theorem mem_gridBytes {cfg : Config} {v : CellWord} {c : Host.Cell} :
    c ∈ gridBytes cfg v ↔
      (∃ i < 2000, c = (cellAddr cfg i, charByte v) ∨ c = (cellAddr cfg i + 1, attrByte v)) ∧ c.2 ≠ unlisted c.1 := by
  have h : (∃ rc ∈ gridCells, c = (cellAddr cfg (cellIndex rc.1 rc.2), charByte v) ∨
      c = (cellAddr cfg (cellIndex rc.1 rc.2) + 1, attrByte v)) ↔
      ∃ i < 2000, c = (cellAddr cfg i, charByte v) ∨ c = (cellAddr cfg i + 1, attrByte v) := by
    constructor
    · rintro ⟨rc, hrc, h⟩
      exact ⟨_, cellIndex_lt (gridCells_inRange rc hrc).1 (gridCells_inRange rc hrc).2, h⟩
    · rintro ⟨i, hi, h⟩
      have hm : i ∈ gridCells.map fun rc => cellIndex rc.1 rc.2 := by rw [gridCells_indexes]; simpa using hi
      obtain ⟨rc, hrc, rfl⟩ := List.mem_map.1 hm
      exact ⟨rc, hrc, h⟩
  rw [← h]
  simp [gridBytes]

/-- The grid's bytes are in canonical form. -/
theorem wf_gridBytes (cfg : Config) (v : CellWord) : Mem.wf (gridBytes cfg v) := by
  refine ⟨List.Pairwise.filter _ (List.pairwise_flatMap.2 ⟨fun rc _ => by simp, ?_⟩), fun c hc => (mem_gridBytes.1 hc).2⟩
  have h : (gridCells.map fun rc => cellIndex rc.1 rc.2).Pairwise (· < ·) := by
    rw [gridCells_indexes]; exact List.pairwise_lt_range
  refine (List.pairwise_map.1 h).imp fun {p q} hpq c hc d hd => ?_
  simp only [List.mem_cons, List.not_mem_nil, or_false] at hc hd
  rcases hc with rfl | rfl <;> rcases hd with rfl | rfl <;> simp only [cellAddr] <;> omega

/-- The memory `clear_screen` builds is the one that storing the cells one after another gives. -/
theorem gridBytes_eq_storeCells (cfg : Config) (v : CellWord) {m : Mem} (h : Mem.wf m) :
    (m.filter (fun c => c.1 < cfg.vgaBase) ++ (gridBytes cfg v ++ m.filter fun c => cfg.vgaBase + 4000 ≤ c.1)) =
      storeCells cfg v (List.range 2000) m := by
  have hg : ∀ c ∈ gridBytes cfg v, cfg.vgaBase ≤ c.1 ∧ c.1 < cfg.vgaBase + 4000 := by
    intro c hc
    obtain ⟨⟨i, hi, rfl | rfl⟩, -⟩ := mem_gridBytes.1 hc <;> simp only [cellAddr] <;> omega
  generalize hn : m.filter (fun c => c.1 < cfg.vgaBase) ++
    (gridBytes cfg v ++ m.filter fun c => cfg.vgaBase + 4000 ≤ c.1) = n
  have hmem : ∀ c : Host.Cell, c ∈ n ↔ (c ∈ m ∧ (c.1 < cfg.vgaBase ∨ cfg.vgaBase + 4000 ≤ c.1)) ∨
      c ∈ gridBytes cfg v := by
    intro c
    simp only [← hn, List.mem_append, List.mem_filter, decide_eq_true_eq]
    tauto
  have hwf : Mem.wf n := by
    refine ⟨?_, fun c hc => ?_⟩
    · rw [← hn]
      refine List.pairwise_append.2 ⟨h.1.filter _, List.pairwise_append.2 ⟨(wf_gridBytes _ _).1, h.1.filter _, ?_⟩, ?_⟩
      · intro c hc d hd
        have := hg c hc
        have := (List.mem_filter.1 hd).2
        simp only [decide_eq_true_eq] at this
        omega
      · intro c hc d hd
        have hc' := (List.mem_filter.1 hc).2
        simp only [decide_eq_true_eq] at hc'
        rcases List.mem_append.1 hd with hd | hd
        · have := hg d hd; omega
        · have := (List.mem_filter.1 hd).2
          simp only [decide_eq_true_eq] at this
          omega
    · rcases (hmem c).1 hc with ⟨hc, -⟩ | hc
      · exact h.2 c hc
      · exact (wf_gridBytes _ _).2 c hc
  have hs := storeCells_spec cfg v (List.range 2000) h
  -- a byte of the new memory is the entry for it, if there is one
  have hread : ∀ a b, ((a, b) ∈ n ∨ ((∀ c ∈ n, c.1 ≠ a) ∧ b = unlisted a)) → Mem.read n a = b := by
    rintro a b (hb | ⟨hb, rfl⟩)
    · exact Mem.read_of_mem hwf hb
    · exact Mem.read_of_forall_ne hb
  have hgrid : ∀ i < 2000, Mem.read n (cellAddr cfg i) = charByte v ∧
      Mem.read n (cellAddr cfg i + 1) = attrByte v := by
    intro i hi
    have hin : cfg.vgaBase ≤ cellAddr cfg i ∧ cellAddr cfg i + 1 < cfg.vgaBase + 4000 := by
      unfold cellAddr; omega
    constructor
    · by_cases hv : charByte v = unlisted (cellAddr cfg i)
      · refine hread _ _ (.inr ⟨fun c hc he => ?_, hv⟩)
        rcases (hmem c).1 hc with ⟨-, hc⟩ | hc
        · omega
        · obtain ⟨⟨j, hj, rfl | rfl⟩, hne⟩ := mem_gridBytes.1 hc
          · exact hne (by simp only at he ⊢; rw [he]; exact hv)
          · simp only [cellAddr] at he; omega
      · exact hread _ _ (.inl ((hmem _).2 (.inr (mem_gridBytes.2 ⟨⟨i, hi, .inl rfl⟩, hv⟩))))
    · by_cases hv : attrByte v = unlisted (cellAddr cfg i + 1)
      · refine hread _ _ (.inr ⟨fun c hc he => ?_, hv⟩)
        rcases (hmem c).1 hc with ⟨-, hc⟩ | hc
        · omega
        · obtain ⟨⟨j, hj, rfl | rfl⟩, hne⟩ := mem_gridBytes.1 hc
          · simp only [cellAddr] at he; omega
          · exact hne (by simp only at he ⊢; rw [he]; exact hv)
      · exact hread _ _ (.inl ((hmem _).2 (.inr (mem_gridBytes.2 ⟨⟨i, hi, .inr rfl⟩, hv⟩))))
  refine Mem.ext_read hwf hs.1 fun a => ?_
  rw [hs.2]
  split
  · next h1 => obtain ⟨i, hi, rfl⟩ := h1; exact (hgrid i (List.mem_range.1 hi)).1
  · next h1 =>
    split
    · next h2 => obtain ⟨i, hi, rfl⟩ := h2; exact (hgrid i (List.mem_range.1 hi)).2
    · next h2 =>
      have hout : a < cfg.vgaBase ∨ cfg.vgaBase + 4000 ≤ a := by
        by_contra hin
        rcases Nat.even_or_odd' (a - cfg.vgaBase) with ⟨i, hi | hi⟩
        · exact h1 ⟨i, List.mem_range.2 (by omega), by unfold cellAddr; omega⟩
        · exact h2 ⟨i, List.mem_range.2 (by omega), by unfold cellAddr; omega⟩
      by_cases he : ∃ c ∈ m, c.1 = a
      · obtain ⟨c, hc, rfl⟩ := he
        rw [Mem.read_of_mem hwf ((hmem c).2 (.inl ⟨hc, hout⟩)), Mem.read_of_mem h hc]
      · have he' : ∀ c ∈ m, c.1 ≠ a := fun c hc e => he ⟨c, hc, e⟩
        rw [Mem.read_of_forall_ne he', Mem.read_of_forall_ne fun c hc e => ?_]
        rcases (hmem c).1 hc with ⟨hc, -⟩ | hc
        · exact he' c hc e
        · have := hg c hc; omega

/-- `clear_screen` by cell index, on a memory in canonical form. -/
theorem clearScreen_eq {s : State} (h : Mem.wf s.mem) :
    clearScreen s =
      { s with
        mem := storeCells s.cfg (cellOf s.attr 0#8) (List.range 2000) s.mem
        log := ((List.range 2000).map fun i => Event.cellWrite i (cellOf s.attr 0#8)).reverse ++ s.log } := by
  have hfold : ∀ (l : List (Nat × Nat)) (v : CellWord) (g : List Event),
      l.foldl (fun g rc => Event.cellWrite (cellIndex rc.1 rc.2) v :: g) g =
        ((l.map fun rc => cellIndex rc.1 rc.2).map fun i => Event.cellWrite i v).reverse ++ g := by
    intro l v g
    induction l generalizing g with
    | nil => rfl
    | cons rc l ih => simp [ih]
  unfold clearScreen
  rw [hfold, gridCells_indexes, gridBytes_eq_storeCells _ _ h]

/-- Each cell after `clear_screen`: blank under the current attribute (40_display_cell_ops.md R75). -/
theorem cell_clearScreen {s : State} (h : Mem.wf s.mem) {i : Nat} (hi : i < 2000) :
    (clearScreen s).cell i = cellOf s.attr 0#8 := by
  have hs := (storeCells_spec s.cfg (cellOf s.attr 0#8) (List.range 2000) h).2
  rw [clearScreen_eq h]
  simp only [State.cell]
  rw [hs, hs, if_neg, if_pos ⟨i, by simpa using hi, rfl⟩, if_pos ⟨i, by simpa using hi, rfl⟩]
  · exact attrByte_append_charByte _
  · rintro ⟨j, -, hj⟩; unfold cellAddr at hj; omega

/-- The loop of 40_display_cell_ops.md R75, one `write_cell_at` after another. -/
theorem clearLoop_eq (s : State) :
    clearLoop s =
      { s with
        mem := storeCells s.cfg (cellOf s.attr 0#8) (List.range 2000).reverse s.mem
        log := ((List.range 2000).map fun i => Event.cellWrite i (cellOf s.attr 0#8)).reverse ++ s.log } := by
  have hfold : ∀ (l : List (Nat × Nat)), (∀ rc ∈ l, rc.1 < 25 ∧ rc.2 < 80) → ∀ s : State,
      l.foldl (fun t rc => (writeCellAt rc.1 rc.2 0#8 t).2) s =
        { s with
          mem := storeCells s.cfg (cellOf s.attr 0#8) (l.map fun rc => cellIndex rc.1 rc.2).reverse s.mem
          log := ((l.map fun rc => cellIndex rc.1 rc.2).map fun i =>
            Event.cellWrite i (cellOf s.attr 0#8)).reverse ++ s.log } := by
    intro l hl
    induction l with
    | nil => intro s; rfl
    | cons rc l ih =>
      intro s
      have hrc := hl rc (by simp)
      rw [List.foldl_cons, writeCellAt_inBounds hrc.1 hrc.2, ih fun q hq => hl q (by simp [hq])]
      simp [storeCells]
  unfold clearLoop
  rw [hfold _ gridCells_inRange, gridCells_indexes]

/-- `clear_screen` is the loop of 40_display_cell_ops.md R75. -/
theorem clearScreen_eq_clearLoop {s : State} (h : Mem.wf s.mem) : clearScreen s = clearLoop s := by
  rw [clearScreen_eq h, clearLoop_eq, storeCells_reverse _ _ _ h]

theorem does_clearScreen {s : State} (h : Mem.wf s.mem) : Does s (clearScreen s) := by
  rw [clearScreen_eq_clearLoop h]; exact does_clearLoop s

end Sys2Proof.Machine
end

