-- ==== Sys2Proof/Laws/Decode.lean ====
section
/-! SUPPORT. The fields of the transport put together and taken apart again. -/

namespace Sys2Proof

@[simp] theorem opOf_header (op z : BitVec 4) : opOf (op ++ z) = op := BitVec.extractLsb'_append_eq_left

@[simp] theorem zOf_header (op z : BitVec 4) : zOf (op ++ z) = z := BitVec.extractLsb'_append_eq_right

/-- What a display header decodes to is told by its `op` (30_encoding.md R51, R52). -/
theorem decodeDisplay_headerBytes (op : BitVec 4) (a b c : Byte) (rest : List Byte) :
    decodeDisplay (headerBytes op a b c ++ rest) = decodeHeader op.toNat a b c rest := by
  simp only [headerBytes, List.cons_append, List.nil_append, decodeDisplay, zOf_header, opOf_header, if_true]

/-- A colour operand in its field is read back (30_encoding.md R52). -/
theorem colorOperand_field (color : BitVec 4) (i : BitVec 4 → Instr) (rest : List Byte) :
    colorOperand 0#8 0#8 (0#4 ++ color) i rest = .ok (i color, rest) := by
  have h1 : (0#4 ++ color : BitVec (4 + 4)).extractLsb' 4 4 = 0#4 := BitVec.extractLsb'_append_eq_left
  have h2 : (0#4 ++ color : BitVec (4 + 4)).extractLsb' 0 4 = color := BitVec.extractLsb'_append_eq_right
  unfold colorOperand
  rw [if_pos ⟨rfl, rfl, h1⟩, h2]

/-- What an accepted display header leaves of the stream: all that follows it, or all but the payload of a `WRBYTES`; and
what it decodes to does not depend on what it leaves (30_encoding.md R53). -/
theorem decodeHeader_ok {op : Nat} {a b c : Byte} {rest rest' : List Byte} {i : Instr}
    (h : decodeHeader op a b c rest = .ok (i, rest')) :
    (op ≠ 4 ∧ rest' = rest ∧ ∀ more, decodeHeader op a b c more = .ok (i, more)) ∨
    (op = 4 ∧ c = 0#8 ∧ lenOf a b ≤ rest.length ∧ i = .wrbytes (rest.take (lenOf a b)) ∧
      rest' = rest.drop (lenOf a b)) := by
  unfold decodeHeader at h
  split at h
  case h_5 =>
    unfold payloadOperand at h
    split at h
    · next hc =>
      split at h
      · next hl => cases h; exact .inr ⟨rfl, hc, hl, rfl, rfl⟩
      · cases h
    · cases h
  all_goals
    first
      | (cases h; done)
      | (cases h; exact .inl ⟨by decide, rfl, fun _ => rfl⟩)
      | (unfold noOperand at h
         split at h
         · next hc => cases h; exact .inl ⟨by decide, rfl, fun _ => if_pos hc⟩
         · cases h)
      | (unfold colorOperand at h
         split at h
         · next hc => cases h; exact .inl ⟨by decide, rfl, fun _ => if_pos hc⟩
         · cases h)
      | (split at h
         · next hc => cases h; exact .inl ⟨by decide, rfl, fun _ => if_pos hc⟩
         · cases h)

/-- A display command is a prefix of at least 4 bytes of the stream, and decodes alike whatever follows it
(30_encoding.md R51, R53). -/
theorem decodeDisplay_ok {bytes rest : List Byte} {i : Instr} (h : decodeDisplay bytes = .ok (i, rest)) :
    ∃ used, bytes = used ++ rest ∧ 4 ≤ used.length ∧ ∀ more, decodeDisplay (used ++ more) = .ok (i, more) := by
  match bytes, h with
  | c :: b :: a :: hd :: tail, h =>
    simp only [decodeDisplay] at h
    split at h
    · next hz =>
      rcases decodeHeader_ok h with ⟨-, rfl, hm⟩ | ⟨ho, hc, hl, rfl, rfl⟩
      · exact ⟨[c, b, a, hd], rfl, by simp, fun more => by simp [decodeDisplay, hz, hm]⟩
      · refine ⟨c :: b :: a :: hd :: tail.take (lenOf a b), by simp, by simp, fun more => ?_⟩
        simp only [List.cons_append, decodeDisplay, hz, if_true, ho, decodeHeader, payloadOperand, hc]
        rw [if_pos (by simp; omega), List.take_append_of_le_length (by simp; omega),
          List.drop_append_of_le_length (by simp; omega)]
        simp
    · cases h

/-- A descriptor request is a prefix of 9 bytes of the stream, and decodes alike whatever follows it
(30_encoding.md R54). -/
theorem decodeRequest_ok {bytes rest : List Byte} {i : Instr} (h : decodeRequest bytes = .ok (i, rest)) :
    ∃ used, bytes = used ++ rest ∧ used.length = 9 ∧ ∀ more, decodeRequest (used ++ more) = .ok (i, more) := by
  match bytes, h with
  | q0 :: q1 :: q2 :: q3 :: q4 :: q5 :: q6 :: q7 :: hd :: tail, h =>
    refine ⟨[q0, q1, q2, q3, q4, q5, q6, q7, hd], ?_, rfl, ?_⟩
    all_goals
      simp only [decodeRequest, List.cons_append, List.nil_append] at h ⊢
      split at h
      · next hz =>
        split at h
        · split at h
          · next hq => cases h; first | rfl | (intro more; rw [if_pos hz, if_pos hq])
          · cases h
        · cases h; first | rfl | (intro more; rw [if_pos hz])
        · cases h; first | rfl | (intro more; rw [if_pos hz])
        · cases h
      · cases h

/-- The four bytes of a 32-bit field put back together. -/
theorem join_bytes32 (b : BitVec 32) :
    (b.extractLsb' 24 8 ++ b.extractLsb' 16 8 ++ b.extractLsb' 8 8 ++ b.extractLsb' 0 8 : BitVec (8 + 8 + 8 + 8)) =
      b := by
  rw [BitVec.extractLsb'_append_extractLsb'_eq_extractLsb' (by decide),
    BitVec.extractLsb'_append_extractLsb'_eq_extractLsb' (by decide),
    BitVec.extractLsb'_append_extractLsb'_eq_extractLsb' (by decide)]
  exact BitVec.extractLsb'_eq_self

/-- The upper nibble and the two bytes of a 20-bit field put back together. -/
theorem join_bytes20 (l : BitVec 20) :
    (l.extractLsb' 16 4 ++ l.extractLsb' 8 8 ++ l.extractLsb' 0 8 : BitVec (4 + 8 + 8)) = l := by
  rw [BitVec.extractLsb'_append_extractLsb'_eq_extractLsb' (by decide),
    BitVec.extractLsb'_append_extractLsb'_eq_extractLsb' (by decide)]
  exact BitVec.extractLsb'_eq_self

/-- The four bytes of a 32-bit field taken out again. -/
theorem split_bytes32 (q3 q2 q1 q0 : Byte) :
    (q3 ++ q2 ++ q1 ++ q0 : BitVec 32).extractLsb' 0 8 = q0 ∧ (q3 ++ q2 ++ q1 ++ q0 : BitVec 32).extractLsb' 8 8 = q1 ∧
      (q3 ++ q2 ++ q1 ++ q0 : BitVec 32).extractLsb' 16 8 = q2 ∧
      (q3 ++ q2 ++ q1 ++ q0 : BitVec 32).extractLsb' 24 8 = q3 := by
  refine ⟨?_, ?_, ?_, ?_⟩ <;>
  · apply BitVec.eq_of_getLsbD_eq
    intro i hi
    simp only [BitVec.getLsbD_append, BitVec.getLsbD_extractLsb']
    interval_cases i <;> simp

/-- The upper nibble and the two bytes of a 20-bit field taken out again. -/
theorem split_bytes20 (n : BitVec 4) (q1 q0 : Byte) :
    (n ++ q1 ++ q0 : BitVec 20).extractLsb' 0 8 = q0 ∧ (n ++ q1 ++ q0 : BitVec 20).extractLsb' 8 8 = q1 ∧
      (n ++ q1 ++ q0 : BitVec 20).extractLsb' 16 4 = n := by
  refine ⟨?_, ?_, ?_⟩ <;>
  · apply BitVec.eq_of_getLsbD_eq
    intro i hi
    simp only [BitVec.getLsbD_append, BitVec.getLsbD_extractLsb']
    interval_cases i <;> simp

/-- The two nibbles of a byte put back together. -/
theorem join_nibbles (q : Byte) : (q.extractLsb' 4 4 ++ q.extractLsb' 0 4 : BitVec (4 + 4)) = q := by
  rw [BitVec.extractLsb'_append_extractLsb'_eq_extractLsb' (by decide)]
  exact BitVec.extractLsb'_eq_self

/-- A byte whose `z` is zero is its operation code above zeros (30_encoding.md R51, R54). -/
theorem eq_opOf_append {h : Byte} (hz : zOf h = 0#4) : h = opOf h ++ 0#4 := by
  rw [← hz]; exact (join_nibbles h).symm

/-- The two bytes of a length put back together. -/
theorem lenOf_bytes {n : Nat} (h : n < 65536) : lenOf (BitVec.ofNat 8 (n / 256)) (BitVec.ofNat 8 n) = n := by
  simp only [lenOf, BitVec.toNat_ofNat]; omega

/-- The bytes of a word are its base-256 digits, least significant first. -/
theorem bytesOfWord_length (n w : Nat) : (bytesOfWord n w).length = n := by
  induction n generalizing w with
  | zero => rfl
  | succ n ih => simp [bytesOfWord, ih]

/-- A table row's command bytes are consumed whole when they decode (30_encoding.md R53, R54). -/
theorem decode_tableBytes {nbits w : Nat} {i : Instr} (h : decodeTableWord nbits w = some i) (more : List Byte) :
    decode (tablePort nbits) (tableBytes nbits w ++ more) = .ok (i, more) := by
  unfold decodeTableWord at h
  split at h
  · next j rest hd =>
    injection h with h
    subst h
    cases hp : tablePort nbits with
    | descriptor =>
      have hd' : decodeRequest (bytesOfWord 9 w) = .ok (j, rest) := by
        simpa only [tableBytes, hp, decode] using hd
      obtain ⟨used, hu, hl, hm⟩ := decodeRequest_ok hd'
      have hlen := congrArg List.length hu
      rw [bytesOfWord_length, List.length_append, hl] at hlen
      have : rest = [] := List.eq_nil_of_length_eq_zero (by omega)
      rw [this, List.append_nil] at hu
      simp only [tableBytes, hp, decode]
      rw [hu]
      exact hm more
    | display =>
      have hd' : decodeDisplay (bytesOfWord 4 w ++ List.replicate (payloadLength w) 0#8) = .ok (j, rest) := by
        simpa only [tableBytes, hp, decode] using hd
      obtain ⟨used, hu, -, hm⟩ := decodeDisplay_ok hd'
      have hrest : rest = [] := by
        simp only [bytesOfWord, List.cons_append, List.nil_append, decodeDisplay] at hd'
        split at hd'
        · have hop : (opOf (BitVec.ofNat 8 (w / 256 / 256 / 256))).toNat = w / 0x10000000 % 16 := by
            simp only [opOf, BitVec.extractLsb'_toNat, BitVec.toNat_ofNat, Nat.shiftRight_eq_div_pow]; omega
          rcases decodeHeader_ok hd' with ⟨ho, hr, -⟩ | ⟨ho, -, -, -, hr⟩
          · rw [hop] at ho
            rw [hr, payloadLength, if_neg ho]; rfl
          · rw [hop] at ho
            rw [hr, payloadLength, if_pos ho]
            simp only [lenOf, BitVec.toNat_ofNat, List.drop_replicate, List.replicate_eq_nil_iff]
            omega
        · cases hd'
      rw [hrest, List.append_nil] at hu
      simp only [tableBytes, hp, decode]
      rw [hu]
      exact hm more
  · cases h

end Sys2Proof
end

