-- ==== Sys2Proof/Laws/Descriptor.lean ====
section
/-! SUPPORT. The value of a record as its bytes side by side, and the natural an appended bit vector stands for. -/

namespace Sys2Proof.Machine

/-- The natural of two bit vectors side by side. -/
theorem toNat_append_eq {n m : Nat} (a : BitVec n) (b : BitVec m) : (a ++ b).toNat = a.toNat * 2 ^ m + b.toNat := by
  rw [BitVec.toNat_append, ← Nat.shiftLeft_add_eq_or_of_lt b.isLt, Nat.shiftLeft_eq]

/-- The value of a record is its bytes side by side, byte 7 uppermost (43_descriptor_encoder.md R112). -/
theorem recordValue_eq_append (d : Descriptor) :
    recordValue d = (d.d7 ++ d.d6 ++ d.d5 ++ d.d4 ++ d.d3 ++ d.d2 ++ d.d1 ++ d.d0 : BitVec (8 + 8 + 8 + 8 + 8 + 8 + 8 + 8)) := by
  apply BitVec.eq_of_getLsbD_eq
  intro i hi
  simp only [recordValue, BitVec.getLsbD_append, BitVec.getLsbD_or, BitVec.getLsbD_shiftLeft, BitVec.getLsbD_setWidth]
  interval_cases i <;> simp

end Sys2Proof.Machine
end

