-- ==== Sys2Proof/Laws/Position.lean ====
section
/-! SUPPORT. The position state machine: what repeated advances, a new line, a character sequence and a retreat do to an
in-range state (41_display_position.md). -/

namespace Sys2Proof.Machine

/-- In range, the offset determines the position. -/
theorem offset_inj {s t : State} (hs : s.PositionInRange) (ht : t.PositionInRange) (h : t.offset = s.offset) :
    t.x = s.x ∧ t.y = s.y := by
  unfold State.offset at h
  obtain ⟨h1, h2⟩ := hs
  obtain ⟨h3, h4⟩ := ht
  constructor <;> apply BitVec.eq_of_toNat_eq <;> omega

/-- In range, the offset is below 2000. -/
theorem offset_lt {s : State} (h : s.PositionInRange) : s.offset < 2000 := by
  obtain ⟨h1, h2⟩ := h
  unfold State.offset; omega

/-- What one `advance` does to an in-range state (41_display_position.md R90). -/
theorem advance_spec {s : State} (h : s.PositionInRange) :
    (advance s).PositionInRange ∧ (advance s).offset = (s.offset + 1) % 2000 ∧
      (advance s).crtcIdx = 0x0E#8 ∧
      (advance s).crtcReg = (pushOffset (BitVec.ofNat 16 ((s.offset + 1) % 2000)) s).crtcReg ∧
      (advance s).log = (pushEvents s.cfg (BitVec.ofNat 16 ((s.offset + 1) % 2000))).reverse ++ s.log := by
  have hn := nextPosition_inRange h.1 h.2
  have ho := nextPosition_offset h.1 h.2
  have hl : linearOffset (nextPosition s.x s.y).1.toNat (nextPosition s.x s.y).2.toNat =
      BitVec.ofNat 16 ((s.offset + 1) % 2000) := by unfold linearOffset; rw [ho]; rfl
  refine ⟨⟨by simpa using hn.1, by simpa using hn.2⟩, by simpa [State.offset] using ho, ?_, ?_, ?_⟩
  all_goals rw [advance_inRange h, hl]; simp

/-- `t` differs from `s` in position, CRT controller and history alone. -/
def MovesOnly (s t : State) : Prop :=
  t = { s with x := t.x, y := t.y, crtcIdx := t.crtcIdx, crtcReg := t.crtcReg, log := t.log }

theorem MovesOnly.trans {s t u : State} (h : MovesOnly s t) (h' : MovesOnly t u) : MovesOnly s u := by
  unfold MovesOnly at *
  cases s; cases t; cases u
  simp only [State.mk.injEq] at *
  simp_all

/-- `t` differs from `s` in position, display memory, CRT controller and history alone. -/
def WritesOnly (s t : State) : Prop :=
  t = { s with x := t.x, y := t.y, mem := t.mem, crtcIdx := t.crtcIdx, crtcReg := t.crtcReg, log := t.log }

theorem WritesOnly.trans {s t u : State} (h : WritesOnly s t) (h' : WritesOnly t u) : WritesOnly s u := by
  unfold WritesOnly at *
  cases s; cases t; cases u
  simp only [State.mk.injEq] at *
  simp_all

theorem MovesOnly.writesOnly {s t : State} (h : MovesOnly s t) : WritesOnly s t := by
  unfold MovesOnly at h
  unfold WritesOnly
  cases s; cases t
  simp only [State.mk.injEq] at *
  simp_all

theorem advance_movesOnly (s : State) : MovesOnly s (advance s) := by
  have h := advance_frame s
  unfold MovesOnly
  generalize advance s = t at *
  cases s; cases t
  simp only [State.mk.injEq] at *
  simp_all

/-- `advance` repeated `n` times. -/
def advances : Nat → State → State
  | 0, s => s
  | n + 1, s => advances n (advance s)

/-- The pushes of `n` advances from an offset: each next offset in turn. -/
def advancePushes (cfg : Config) (off : Nat) : Nat → List Event
  | 0 => []
  | n + 1 => pushEvents cfg (BitVec.ofNat 16 ((off + 1) % 2000)) ++ advancePushes cfg (off + 1) n

theorem advancePushes_mod (cfg : Config) (off n : Nat) :
    advancePushes cfg (off % 2000) n = advancePushes cfg off n := by
  induction n generalizing off with
  | zero => rfl
  | succ n ih =>
    simp only [advancePushes]
    rw [show (off % 2000 + 1) % 2000 = (off + 1) % 2000 by omega, ← ih (off % 2000 + 1), ← ih (off + 1),
      show (off % 2000 + 1) % 2000 = (off + 1) % 2000 by omega]

/-- The pushes of `n` advances as one list. -/
theorem advancePushes_eq (cfg : Config) (off n : Nat) :
    advancePushes cfg off n =
      (List.range n).flatMap fun j => pushEvents cfg (BitVec.ofNat 16 ((off + j + 1) % 2000)) := by
  induction n generalizing off with
  | zero => rfl
  | succ n ih =>
    simp only [advancePushes]
    rw [ih, List.range_succ_eq_map, List.flatMap_cons, List.flatMap_map]
    congr 1
    exact List.flatMap_congr fun j _ => by rw [show off + 1 + j + 1 = off + (j + 1) + 1 by omega]

/-- What `n` advances do to an in-range state: the offset moves on by `n` modulo 2000, each step is pushed, and only the
position, the CRT controller and the history change. -/
theorem advances_spec (n : Nat) {s : State} (h : s.PositionInRange) :
    (advances n s).PositionInRange ∧ (advances n s).offset = (s.offset + n) % 2000 ∧
      (advances n s).log = (advancePushes s.cfg s.offset n).reverse ++ s.log ∧
      MovesOnly s (advances n s) := by
  induction n generalizing s with
  | zero =>
    refine ⟨h, ?_, rfl, rfl⟩
    have := offset_lt h; simp only [advances]; omega
  | succ n ih =>
    obtain ⟨h1, h2, -, -, h5⟩ := advance_spec h
    obtain ⟨i1, i2, i3, i4⟩ := ih h1
    have hcfg : (advance s).cfg = s.cfg := by rw [advance_frame]
    refine ⟨i1, ?_, ?_, ?_⟩
    · show (advances n (advance s)).offset = _
      rw [i2, h2]; omega
    · show (advances n (advance s)).log = _
      rw [i3, h5, h2, hcfg, advancePushes_mod]
      simp [advancePushes]
    · exact (advance_movesOnly s).trans i4

/-- Until the row changes, an in-range state advances through the rest of its row. -/
theorem advanceUntilRowChanges_eq {n : Nat} {s : State} (h : s.PositionInRange) (hn : 80 - s.x.toNat ≤ n) :
    advanceUntilRowChanges s.y n s = advances (80 - s.x.toNat) s := by
  induction n generalizing s with
  | zero => have := h.1; omega
  | succ n ih =>
    obtain ⟨hx, hy⟩ := h
    simp only [advanceUntilRowChanges]
    have hsp := (advance_spec (s := s) ⟨hx, hy⟩).1
    by_cases hlast : s.x.toNat = 79
    · have hne : (advance s).y ≠ s.y := by
        simp only [advance_y, nextPosition]
        rw [if_pos (by bv_omega)]
        simp only
        split <;> intro he <;> bv_omega
      rw [if_neg hne, hlast]
      rfl
    · have hx' : (advance s).x.toNat = s.x.toNat + 1 := by
        simp only [advance_x, nextPosition]
        rw [if_neg (by bv_omega)]
        bv_omega
      have hy' : (advance s).y = s.y := by
        simp only [advance_y, nextPosition]
        rw [if_neg (by bv_omega)]
      rw [if_pos hy']
      have := ih hsp (by omega)
      rw [hy'] at this
      rw [this, hx', show 80 - s.x.toNat = (80 - (s.x.toNat + 1)) + 1 by omega]
      rfl

/-- `new_line` on an in-range state is the rest of the row's advances (41_display_position.md R93). -/
theorem newLine_eq {s : State} (h : s.PositionInRange) : newLine s = advances (80 - s.x.toNat) s :=
  advanceUntilRowChanges_eq h (by omega)

/-! ### Characters -/

/-- What `write_char` does to an in-range state (40_display_cell_ops.md R71). -/
theorem writeChar_eq {s : State} (h : s.PositionInRange) (byte : Byte) :
    writeChar byte s = advance (cellWrite s.offset (cellOf s.attr byte) s) := by
  unfold writeChar
  rw [writeCellAt_inBounds h.2 h.1]
  rfl

/-- The events of writing characters from an offset under an attribute (40_display_cell_ops.md R74). -/
def charEvents (cfg : Config) (attr : Byte) (off : Nat) : List Byte → List Event
  | [] => []
  | b :: bs =>
    .cellWrite (off % 2000) (cellOf attr b) ::
      (pushEvents cfg (BitVec.ofNat 16 ((off + 1) % 2000)) ++ charEvents cfg attr (off + 1) bs)

theorem charEvents_mod (cfg : Config) (attr : Byte) (off : Nat) (bs : List Byte) :
    charEvents cfg attr (off % 2000) bs = charEvents cfg attr off bs := by
  induction bs generalizing off with
  | nil => rfl
  | cons b bs ih =>
    simp only [charEvents]
    rw [show off % 2000 % 2000 = off % 2000 by omega, show (off % 2000 + 1) % 2000 = (off + 1) % 2000 by omega,
      ← ih (off % 2000 + 1), ← ih (off + 1), show (off % 2000 + 1) % 2000 = (off + 1) % 2000 by omega]

/-- The events of writing characters as one list. -/
theorem charEvents_eq (cfg : Config) (attr : Byte) (off : Nat) (bs : List Byte) :
    charEvents cfg attr off bs =
      (bs.mapIdx fun j b => Event.cellWrite ((off + j) % 2000) (cellOf attr b) ::
        pushEvents cfg (BitVec.ofNat 16 ((off + j + 1) % 2000))).flatten := by
  induction bs generalizing off with
  | nil => rfl
  | cons b bs ih =>
    simp only [charEvents, List.mapIdx_cons, List.flatten_cons, ih, List.cons_append, Nat.add_zero]
    congr 4
    funext j c
    rw [show off + 1 + j = off + (j + 1) by omega]

/-- What `write_bytes` does to an in-range state, for the bytes up to the first zero (40_display_cell_ops.md R74). -/
theorem writeBytes_spec (l : List Byte) {s : State} (h : s.PositionInRange) :
    (writeBytes l s).PositionInRange ∧
      (writeBytes l s).offset = (s.offset + (l.takeWhile (· != 0#8)).length) % 2000 ∧
      (writeBytes l s).log = (charEvents s.cfg s.attr s.offset (l.takeWhile (· != 0#8))).reverse ++ s.log ∧
      WritesOnly s (writeBytes l s) := by
  induction l generalizing s with
  | nil =>
    refine ⟨h, ?_, rfl, rfl⟩
    have := offset_lt h; simp only [writeBytes, List.takeWhile_nil, List.length_nil]; omega
  | cons b bs ih =>
    simp only [writeBytes]
    by_cases hb : b = 0#8
    · subst hb
      rw [if_pos rfl]
      refine ⟨h, ?_, rfl, rfl⟩
      have := offset_lt h
      simp only [List.takeWhile_cons, bne_self_eq_false, Bool.false_eq_true, if_false, List.length_nil]; omega
    · rw [if_neg hb]
      have hb' : (b != 0#8) = true := by simpa using hb
      have hoff := offset_lt h
      have hr : (cellWrite s.offset (cellOf s.attr b) s).PositionInRange := h
      obtain ⟨h1, h2, -, -, h5⟩ := advance_spec hr
      rw [← writeChar_eq h] at h1 h2 h5
      have hf : WritesOnly s (writeChar b s) := by
        rw [writeChar_eq h]
        exact WritesOnly.trans (t := cellWrite s.offset (cellOf s.attr b) s) rfl (advance_movesOnly _).writesOnly
      have hcfg : (writeChar b s).cfg = s.cfg := by rw [hf]
      have hattr : (writeChar b s).attr = s.attr := by rw [hf]
      obtain ⟨i1, i2, i3, i4⟩ := ih h1
      simp only [List.takeWhile_cons, hb', if_true, List.length_cons, charEvents]
      have ho : (cellWrite s.offset (cellOf s.attr b) s).offset = s.offset := rfl
      rw [ho] at h2 h5
      refine ⟨i1, ?_, ?_, ?_⟩
      · rw [i2, h2]; omega
      · rw [i3, h5, h2, hcfg, hattr, charEvents_mod]
        simp [Nat.mod_eq_of_lt hoff]
      · exact hf.trans i4

/-! ### Retreat -/

/-- What `retreat` does to an in-range state (41_display_position.md R91). -/
theorem retreat_spec {s : State} (h : s.PositionInRange) :
    ∃ t, retreat s = .ok t ∧ t.PositionInRange ∧ s.LandsAt t.x.toNat t.y.toNat ∧
      t.events = s.events ++ s.retreatEvents t.x.toNat t.y.toNat ∧
      MovesOnly s t ∧
      ((s.x.toNat = 0 ∧ s.y.toNat = 0 ∧ t = s) ∨
        (t.crtcIdx = 0x0E#8 ∧ t.crtcReg = (pushOffset (BitVec.ofNat 16 t.offset) s).crtcReg)) := by
  obtain ⟨hx, hy⟩ := h
  by_cases h0 : s.x = 0#7 ∧ s.y = 0#5
  · have hx0 : s.x.toNat = 0 := by rw [h0.1]; rfl
    have hy0 : s.y.toNat = 0 := by rw [h0.2]; rfl
    refine ⟨s, by rw [retreat, if_pos h0], ⟨hx, hy⟩, .inl ⟨hx0, hy0, hx0, hy0⟩, ?_, rfl, .inl ⟨hx0, hy0, rfl⟩⟩
    simp [State.retreatEvents, hx0, hy0]
  · by_cases hxz : s.x = 0#7
    · have hx0 : s.x.toNat = 0 := by rw [hxz]; rfl
      have hypos : s.y.toNat ≠ 0 := fun e => h0 ⟨hxz, BitVec.eq_of_toNat_eq e⟩
      have hy1 : (s.y - 1#5).toNat = s.y.toNat - 1 := by bv_omega
      have hc := scanRow_le (s.y.toNat - 1) 80 s
      have hcs := scanRow_spec (s.y.toNat - 1) 80 s
      have hst := scanRow_state (s.y.toNat - 1) 80 s
      generalize hscan : scanRow (s.y.toNat - 1) 80 s = p at hc hcs hst
      obtain ⟨c, u⟩ := p
      simp only at hc hcs hst
      have hc7 : (BitVec.ofNat 7 c).toNat = c := by simp only [BitVec.toNat_ofNat]; omega
      have hret : retreat s =
          .ok (pushOffset (linearOffset c (s.y.toNat - 1)) { u with x := BitVec.ofNat 7 c, y := s.y - 1#5 }) := by
        unfold retreat
        rw [if_neg h0, if_pos hxz, hy1]
        unfold lastNonblankColumn
        rw [if_pos (by omega), hscan]
        simp only
        rw [setPosition_inBounds (by omega) (by omega)]
      refine ⟨_, hret, ⟨?_, ?_⟩, .inr (.inl ⟨hx0, ?_, ?_⟩), ?_, ?_, .inr ⟨?_, ?_⟩⟩
      · simp only [pushOffset_x, hc7]; omega
      · simp only [pushOffset_y, hy1]; omega
      · simp only [pushOffset_y, hy1]; omega
      · simp only [pushOffset_x, pushOffset_y, hc7, hy1]
        rcases hcs with h | h
        · exact .inl ⟨by omega, h.2⟩
        · exact .inr h
      · have hne : ¬(s.x.toNat = 0 ∧ s.y.toNat = 0) := fun e => hypos e.2
        simp only [State.events, State.retreatEvents, pushOffset_log, pushOffset_x, pushOffset_y, hc7, hy1, hst,
          if_neg hne, if_pos hx0]
        simp
      · rw [hst]; rfl
      · simp
      · simp only [pushOffset_crtcReg, State.offset, pushOffset_x, pushOffset_y, hc7, hy1, hst]
        rfl
    · have hx1 : (s.x - 1#7).toNat = s.x.toNat - 1 := by bv_omega
      have hx0 : s.x.toNat ≠ 0 := fun e => hxz (BitVec.eq_of_toNat_eq e)
      have hret : retreat s = .ok (pushOffset (linearOffset (s.x.toNat - 1) s.y.toNat) { s with x := s.x - 1#7 }) := by
        unfold retreat
        rw [if_neg h0, if_neg hxz, hx1, setPosition_inBounds (by omega) (by omega)]
      refine ⟨_, hret, ⟨?_, ?_⟩, .inr (.inr ⟨?_, ?_⟩), ?_, ?_, .inr ⟨?_, ?_⟩⟩
      · simp only [pushOffset_x, hx1]; omega
      · simpa using hy
      · simp only [pushOffset_x, hx1]; omega
      · simp
      · have hne : ¬(s.x.toNat = 0 ∧ s.y.toNat = 0) := fun e => hx0 e.1
        simp only [State.events, State.retreatEvents, pushOffset_log, pushOffset_x, pushOffset_y, hx1, if_neg hne,
          if_neg hx0]
        simp
      · rfl
      · simp
      · simp only [pushOffset_crtcReg, State.offset, pushOffset_x, pushOffset_y, hx1]
        rfl

/-! ### Frames on every state -/

theorem writeCellAt_writesOnly (row col : Nat) (byte : Byte) (s : State) :
    WritesOnly s (writeCellAt row col byte s).2 := by
  unfold writeCellAt; split <;> exact rfl

theorem setPosition_movesOnly (x y : Nat) (s : State) : MovesOnly s (setPosition x y s) := by
  unfold setPosition; split <;> exact rfl

/-- A `retreat` that completes moves only, on every state. -/
theorem retreat_movesOnly {s t : State} (h : retreat s = .ok t) : MovesOnly s t := by
  unfold retreat at h
  split at h
  · cases h; exact rfl
  · split at h
    · split at h
      · cases h
      · next c u hscan =>
        unfold lastNonblankColumn at hscan
        split at hscan
        · injection hscan with hscan
          injection h with h
          have hu : u = (scanRow (s.y - 1#5).toNat 80 s).2 := by rw [hscan]
          have h1 : MovesOnly s { u with x := BitVec.ofNat 7 c, y := s.y - 1#5 } := by
            rw [hu, scanRow_state]; exact rfl
          rw [← h]
          exact h1.trans (setPosition_movesOnly _ _ _)
        · cases hscan
    · injection h with h
      rw [← h]
      exact MovesOnly.trans (t := { s with x := s.x - 1#7 }) rfl (setPosition_movesOnly _ _ _)

theorem advanceUntilRowChanges_movesOnly (y0 : BitVec 5) (n : Nat) (s : State) :
    MovesOnly s (advanceUntilRowChanges y0 n s) := by
  induction n generalizing s with
  | zero => exact rfl
  | succ n ih =>
    simp only [advanceUntilRowChanges]
    split
    · exact (advance_movesOnly s).trans (ih _)
    · exact advance_movesOnly s

theorem writeChar_writesOnly (byte : Byte) (s : State) : WritesOnly s (writeChar byte s) :=
  (writeCellAt_writesOnly _ _ byte s).trans (advance_movesOnly _).writesOnly

theorem writeBytes_writesOnly (l : List Byte) (s : State) : WritesOnly s (writeBytes l s) := by
  induction l generalizing s with
  | nil => exact rfl
  | cons b bs ih =>
    simp only [writeBytes]
    split
    · exact rfl
    · exact (writeChar_writesOnly b s).trans (ih _)

end Sys2Proof.Machine
end

