-- ==== Sys2Proof/Laws/Exec.lean ====
section
/-! SUPPORT. What an operation can do, said once: it completes by legal actions and a result, or it stops. -/

namespace Sys2Proof.Machine

/-- A guarded operation that answers a next state was issued after `INIT`. -/
theorem afterInit_next {s t : State} {k : Host.Outcome State Fault Refusal} (h : afterInit s k = .next t) :
    s.initDone = true ∧ k = .next t := by
  unfold afterInit at h
  split at h
  · next hw => exact ⟨hw, h⟩
  · cases h

theorem afterInit_true {s : State} (h : s.initDone = true) (k : Host.Outcome State Fault Refusal) :
    afterInit s k = k := if_pos h

theorem afterInit_false {s : State} (h : s.initDone = false) (k : Host.Outcome State Fault Refusal) :
    afterInit s k = .refused .beforeInit := if_neg (by simp [h])

/-- After `INIT`, where the retreat lands, `RETREAT` completes. -/
theorem exec_retreat_of_ok {s t : State} (hw : s.initDone = true) (h : retreat s = .ok t) :
    exec .retreat s = complete .nothing t := by
  simp only [exec, execRetreat, h, afterInit_true hw]

/-- After `INIT`, where the retreat lands, `DELCHAR` blanks the cell. -/
theorem exec_delchar_of_ok {s t : State} (hw : s.initDone = true) (h : retreat s = .ok t) :
    exec .delchar s = complete .nothing (writeCellAt t.y.toNat t.x.toNat 0#8 t).2 := by
  simp only [exec, execDelchar, h, afterInit_true hw]

/-- An operation that completes after legal actions got there by them and one result. -/
theorem does_complete {s t u : State} {r : Result} (hd : Does s u) (h : complete r u = .next t) :
    ∃ u, Does s u ∧ t = { u with result := t.result } := by
  cases h
  exact ⟨u, hd, rfl⟩

/-- What an operation other than `CLEAR` can do, on any state: if it answers a next state, it got there by legal actions
and one result (00_scope.md R7, R8; 30_encoding.md R55). -/
theorem exec_does_of_ne_clear {i : Instr} {s t : State} (hi : i ≠ .clear) (h : exec i s = .next t) :
    ∃ u, Does s u ∧ t = { u with result := t.result } := by
  cases i with
  | init =>
    refine does_complete (((Does.one (a := .moveTo 0#7 0#5) trivial s).trans
      ((Does.one (a := .colour s.cfg.defaultAttr) trivial _).trans
        (Does.one (a := .begin) trivial _))).trans (does_setPosition 0 0 _)) h
  | wrchar byte => exact does_complete (does_writeChar byte s) (afterInit_next h).2
  | delchar =>
    have h' := (afterInit_next h).2
    split at h'
    · cases h'
    · next u hu => exact does_complete ((does_retreat hu).trans (does_writeCellAt _ _ _ u)) h'
  | wrcell row col byte => exact does_complete (does_writeCellAt row col byte s) (afterInit_next h).2
  | wrbytes l => exact does_complete (does_writeBytes l s) (afterInit_next h).2
  | clear => exact absurd rfl hi
  | advance => exact does_complete (does_advance s) (afterInit_next h).2
  | retreat =>
    have h' := (afterInit_next h).2
    split at h'
    · cases h'
    · next u hu => exact does_complete (does_retreat hu) h'
  | newline => exact does_complete (does_advanceUntilRowChanges s.y 128 s) (afterInit_next h).2
  | setfg color => exact does_complete (.one (a := .colour _) trivial s) (afterInit_next h).2
  | setbg color => exact does_complete (.one (a := .colour _) trivial s) (afterInit_next h).2
  | setpos x y => exact does_complete (does_setPosition x y s) h
  | encode base limit flags access => exact does_complete (.refl s) h
  | tovalue d => exact does_complete (.refl s) h
  | nulldesc => exact does_complete (.refl s) h

/-- What an operation can do on a display memory in canonical form: if it answers a next state, it got there by legal
actions and one result. -/
theorem exec_does {i : Instr} {s t : State} (hm : Mem.wf s.mem) (h : exec i s = .next t) :
    ∃ u, Does s u ∧ t = { u with result := t.result } := by
  by_cases hi : i = .clear
  · subst hi
    have h' : afterInit s (complete .nothing (clearScreen s)) = .next t := h
    exact does_complete (does_clearScreen hm) (afterInit_next h').2
  · exact exec_does_of_ne_clear hi h

/-- The operations change neither the platform, the static table nor the host's pending input, on any state. -/
theorem exec_frame {i : Instr} {s t : State} (h : exec i s = .next t) :
    t.cfg = s.cfg ∧ t.gdt = s.gdt ∧ t.gdtLen = s.gdtLen ∧ t.turns = s.turns ∧ t.displayIn = s.displayIn ∧
      t.requestIn = s.requestIn := by
  by_cases hi : i = .clear
  · subst hi
    have h' : afterInit s (complete .nothing (clearScreen s)) = .next t := h
    cases (afterInit_next h').2
    simp
  · obtain ⟨u, hd, ht⟩ := exec_does_of_ne_clear hi h
    rw [ht]
    refine hd.keeps (P := fun u => u.cfg = s.cfg ∧ u.gdt = s.gdt ∧ u.gdtLen = s.gdtLen ∧ u.turns = s.turns ∧
      u.displayIn = s.displayIn ∧ u.requestIn = s.requestIn) (fun a v _ hv => ?_) ⟨rfl, rfl, rfl, rfl, rfl, rfl⟩
    cases a <;> exact hv

/-- The events of legal actions are those of the actions, one after another. -/
theorem events_runActions (as : List Action) (s : State) :
    (runActions as s).cfg = s.cfg ∧
      (runActions as s).events = s.events ++ as.flatMap (Action.events s.cfg) := by
  induction as generalizing s with
  | nil => simp [runActions]
  | cons a as ih =>
    have h1 : (a.run s).cfg = s.cfg := by cases a <;> rfl
    have h2 : (a.run s).events = s.events ++ a.events s.cfg := by
      cases a <;> simp [Action.run, Action.events, State.events]
    show (runActions as (a.run s)).cfg = _ ∧ (runActions as (a.run s)).events = _
    rw [(ih _).1, (ih _).2, h1, h2]
    simp

end Sys2Proof.Machine
end

