-- ==== Sys2Proof/Laws/PerInstr.lean ====
section
/-! SUPPORT. Statements about every operation as syntax, one lemma per constructor. -/

namespace Sys2Proof.Laws.CommandLength

/-- The command of an operation has 4 bytes and the payload of a `WRBYTES`, or 9 bytes on the descriptor unit's port
(30_encoding.md R53, R54). -/
def Statement (i : Instr) : Prop :=
  (encodeInstr i).length =
    match i.port, i with
    | .display, .wrbytes sequence => 4 + sequence.length
    | .display, _ => 4
    | .descriptor, _ => 9

theorem init : Statement .init := rfl
theorem wrchar (byte : Byte) : Statement (.wrchar byte) := rfl
theorem delchar : Statement .delchar := rfl
theorem wrcell (row col : Nat) (byte : Byte) : Statement (.wrcell row col byte) := rfl
theorem wrbytes (sequence : List Byte) : Statement (.wrbytes sequence) := by
  simp [Statement, encodeInstr, headerBytes, Instr.port]; omega
theorem clear : Statement .clear := rfl
theorem advance : Statement .advance := rfl
theorem retreat : Statement .retreat := rfl
theorem newline : Statement .newline := rfl
theorem setfg (color : BitVec 4) : Statement (.setfg color) := rfl
theorem setbg (color : BitVec 4) : Statement (.setbg color) := rfl
theorem setpos (x y : Nat) : Statement (.setpos x y) := rfl
theorem encode (base : BitVec 32) (limit : BitVec 20) (flags : BitVec 4) (access : Byte) :
    Statement (.encode base limit flags access) := rfl
theorem tovalue (record : Descriptor) : Statement (.tovalue record) := rfl
theorem nulldesc : Statement .nulldesc := rfl

end Sys2Proof.Laws.CommandLength
end

