-- ==== Sys2Proof/Tests/Slice0.lean ====
section
/-! SUPPORT. Tests: expected values are those of 95_test_vectors.md (S1 to S9, T1 to T16), or, for the operations the
transport cannot carry, the widths of 30_encoding.md. Then one witness for the hypotheses of each statement. -/

namespace Sys2Proof.Tests

open Sys2Proof.Machine

/-- The state an outcome goes on in. -/
def ran : Host.Outcome State Fault Refusal → Option State
  | .next t => some t
  | .fault _ => none
  | .refused _ => none

/-- The refusal an outcome stops with. -/
def refusal : Host.Outcome State Fault Refusal → Option Refusal
  | .next _ => none
  | .fault _ => none
  | .refused r => some r

/-- The state right after `INIT`, but for its events, at a position under an attribute with some cells' contents. -/
def at_ (x : BitVec 7) (y : BitVec 5) (attr : Byte) (cells : List (Nat × CellWord)) : State :=
  { State.reset with
    x := x
    y := y
    attr := attr
    initDone := true
    mem := cells.foldl (fun m c => storeCell m (cellAddr Config.default c.1) c.2) []
    crtcIdx := 0x0E#8 }

/-- The state right after `INIT`, but for its events. -/
def ready : State := at_ 0#7 0#5 0x0F#8 []

/-- `push(n)` of 95_test_vectors.md, by its two data bytes, at the default ports. -/
def push (low high : Byte) : List Event :=
  [.portWrite 0x3D4#16 0x0F#8, .portWrite 0x3D5#16 low, .portWrite 0x3D4#16 0x0E#8, .portWrite 0x3D5#16 high]

/-- Position, attribute and events after an operation. -/
def shown (i : Instr) (s : State) : Option (BitVec 7 × BitVec 5 × Byte × List Event) :=
  (ran (exec i s)).map fun t => (t.x, t.y, t.attr, t.events)

/-! ### WellFormed refuses what the transport cannot carry -/

theorem test_illFormed_wrcell_row : Instr.WellFormed (.wrcell 256 0 0#8) = false := by decide
theorem test_illFormed_wrcell_col : Instr.WellFormed (.wrcell 0 256 0#8) = false := by decide
theorem test_illFormed_setpos_x : Instr.WellFormed (.setpos 256 0) = false := by decide
theorem test_illFormed_setpos_y : Instr.WellFormed (.setpos 0 256) = false := by decide
theorem test_illFormed_wrbytes : Instr.WellFormed (.wrbytes (List.replicate 65536 0x78#8)) = false := by
  show decide ((List.replicate 65536 0x78#8).length < 65536) = false
  rw [List.length_replicate]; decide

/-! ### Decoding: the words of T15 -/

theorem test_decode_init : decodeTableWord 32 0x00000000 = some .init := by decide
theorem test_decode_wrchar : decodeTableWord 32 0x10000041 = some (.wrchar 0x41#8) := by decide
theorem test_decode_delchar : decodeTableWord 32 0x20000000 = some .delchar := by decide
theorem test_decode_wrcell : decodeTableWord 32 0x30184F58 = some (.wrcell 24 79 0x58#8) := by decide
theorem test_decode_wrcell_outOfBounds : decodeTableWord 32 0x30190058 = some (.wrcell 25 0 0x58#8) := by decide
theorem test_decode_wrbytes :
    decode .display [0x00#8, 0x04#8, 0x00#8, 0x40#8, 0x48#8, 0x69#8, 0x00#8, 0x7A#8, 0x00#8] =
      .ok (.wrbytes [0x48#8, 0x69#8, 0x00#8, 0x7A#8], [0x00#8]) := by decide
theorem test_decode_wrbytes_300 : payloadLength 0x40012C00 = 300 := by decide
theorem test_decode_clear : decodeTableWord 32 0x50000000 = some .clear := by decide
theorem test_decode_advance : decodeTableWord 32 0x60000000 = some .advance := by decide
theorem test_decode_retreat : decodeTableWord 32 0x70000000 = some .retreat := by decide
theorem test_decode_newline : decodeTableWord 32 0x80000000 = some .newline := by decide
theorem test_decode_setfg : decodeTableWord 32 0x90000004 = some (.setfg 4#4) := by decide
theorem test_decode_setbg : decodeTableWord 32 0xA0000009 = some (.setbg 9#4) := by decide
theorem test_decode_setpos : decodeTableWord 32 0xB0100300 = some (.setpos 16 3) := by decide
theorem test_decode_nulldesc : decodeTableWord 72 0x000000000000000000 = some .nulldesc := by decide
theorem test_decode_encode :
    decodeTableWord 72 0x109F5ABCDE12345678 = some (.encode 0x12345678#32 0xABCDE#20 0x5#4 0x9F#8) := by decide
theorem test_decode_tovalue :
    decodeTableWord 72 0x20125A9F345678BCDE =
      some (.tovalue ⟨0xDE#8, 0xBC#8, 0x78#8, 0x56#8, 0x34#8, 0x9F#8, 0x5A#8, 0x12#8⟩) := by decide

/-- The command bytes of T15 in transport order. -/
theorem test_encode_setpos : encodeInstr (.setpos 79 24) = [0x00#8, 0x18#8, 0x4F#8, 0xB0#8] := by decide
theorem test_encode_encode :
    encodeInstr (.encode 0#32 0xFFFFF#20 0xC#4 0x9A#8) =
      [0x00#8, 0x00#8, 0x00#8, 0x00#8, 0xFF#8, 0xFF#8, 0xCF#8, 0x9A#8, 0x10#8] := by decide

/-- The spec's syntax (30_encoding.md R57). -/
theorem test_source : Instr.toSource (.wrcell 24 79 0x58#8) = "WRCELL 24, 79, 88" := by decide +kernel

/-! ### Refusals: T16 -/

theorem test_refuse_opcode : decode .display [0#8, 0#8, 0#8, 0xC0#8] = .error .reservedOpcode := by decide
theorem test_refuse_z : decode .display [0#8, 0#8, 0#8, 0x01#8] = .error .headerZNonZero := by decide
theorem test_refuse_init_operand : decode .display [1#8, 0#8, 0#8, 0x00#8] = .error .unusedOperandNonZero := by decide
theorem test_refuse_color : decode .display [0x10#8, 0#8, 0#8, 0x90#8] = .error .unusedOperandNonZero := by decide
theorem test_refuse_wrbytes_c :
    decode .display [0x01#8, 0x04#8, 0x00#8, 0x40#8] = .error .unusedOperandNonZero := by decide
theorem test_refuse_payload :
    decode .display [0x00#8, 0x04#8, 0x00#8, 0x40#8, 0x48#8, 0x69#8] = .error .truncatedPayload := by decide
theorem test_refuse_function :
    decode .descriptor [0#8, 0#8, 0#8, 0#8, 0#8, 0#8, 0#8, 0#8, 0x30#8] = .error .reservedFunction := by decide
theorem test_refuse_nulldesc_arg :
    decode .descriptor [1#8, 0#8, 0#8, 0#8, 0#8, 0#8, 0#8, 0#8, 0x00#8] = .error .nullArgumentNonZero := by decide
theorem test_refuse_wrchar_first :
    refusal (step (State.reset.withProgram [.wrchar 0x41#8])) = some .beforeInit := by decide
theorem test_refuse_clear_first : refusal (exec .clear State.reset) = some .beforeInit := by decide
/-- `INIT` first makes the same command run: R71's events at (0, 0) under the default attribute, after `INIT`'s push. -/
theorem test_run_wrchar_second :
    ((ran (step (State.reset.withProgram [.init, .wrchar 0x41#8]))).bind fun t => ran (step t)).map State.events =
      some (push 0x00#8 0x00#8 ++ .cellWrite 0 0x0F41#16 :: push 0x01#8 0x00#8) := by decide
theorem test_accept_setpos_first : shown (.setpos 3 3) State.reset = some (0#7, 0#5, 0#8, push 0xF3#8 0x00#8) := by
  decide
theorem test_accept_encode_first :
    (ran (step (State.reset.withFetchWord 72 0x109ACFFFFF00000000))).map State.result =
      some (.record ⟨0xFF#8, 0xFF#8, 0x00#8, 0x00#8, 0x00#8, 0x9A#8, 0xCF#8, 0x00#8⟩) := by decide

/-! ### Operations: T1 to T14 -/

/-- T1, second row. -/
theorem test_init : shown .init (at_ 33#7 7#5 0x94#8 []) = some (0#7, 0#5, 0x0F#8, push 0x00#8 0x00#8) := by decide
/-- T2: the last position. -/
theorem test_wrchar_wraps :
    shown (.wrchar 0x21#8) (at_ 79#7 24#5 0x0F#8 []) =
      some (0#7, 0#5, 0x0F#8, .cellWrite 1999 0x0F21#16 :: push 0x00#8 0x00#8) := by decide
/-- T2: an offset that needs the high byte. -/
theorem test_wrchar_high :
    shown (.wrchar 0x41#8) (at_ 15#7 3#5 0x0F#8 []) =
      some (16#7, 3#5, 0x0F#8, .cellWrite 255 0x0F41#16 :: push 0x00#8 0x01#8) := by decide
/-- T3: at the origin. -/
theorem test_delchar_origin :
    shown .delchar ready = some (0#7, 0#5, 0x0F#8, [.cellWrite 0 0x0F00#16]) := by decide
/-- T3: the old attribute is not kept. -/
theorem test_delchar_attribute :
    (ran (exec .delchar (at_ 1#7 0#5 0x94#8 [(0, 0x0F41#16)]))).map (fun t => t.cell 0) = some 0x9400#16 := by decide
/-- T4: the last cell. -/
theorem test_wrcell_last :
    (ran (exec (.wrcell 24 79 0x58#8) ready)).map (fun t => (t.cell 1999, t.result, t.x)) =
      some (0x0F58#16, .oob false, 0#7) := by decide
/-- T4: column 80 must not write cell 80. -/
theorem test_wrcell_outOfBounds :
    (ran (exec (.wrcell 0 80 0x58#8) ready)).map (fun t => (t.events, t.result)) = some ([], .oob true) := by decide
/-- T5: the zero byte ends the sequence. -/
theorem test_wrbytes_zero :
    shown (.wrbytes [0x48#8, 0x69#8, 0x00#8, 0x7A#8]) ready =
      some (2#7, 0#5, 0x0F#8,
        .cellWrite 0 0x0F48#16 :: push 0x01#8 0x00#8 ++ .cellWrite 1 0x0F69#16 :: push 0x02#8 0x00#8) := by decide
/-- T5: no special meaning for the byte 0x0A. -/
theorem test_wrbytes_newlineByte :
    (ran (exec (.wrbytes [0x41#8, 0x0A#8, 0x42#8]) ready)).map (fun t => (t.x, t.cell 1)) =
      some (3#7, 0x0F0A#16) := by decide
/-- T8, third row: the last cell and the position. -/
theorem test_clear :
    (ran (exec .clear (at_ 79#7 24#5 0x94#8 [(7, 0x0F41#16)]))).map
      (fun t => (t.x, t.y, t.cell 7, t.cell 0, t.cell 1999)) =
      some (79#7, 24#5, 0x9400#16, 0x9400#16, 0x9400#16) := by decide +kernel
/-- T7: a high data byte. -/
theorem test_advance_row :
    shown .advance (at_ 79#7 23#5 0x0F#8 []) = some (0#7, 24#5, 0x0F#8, push 0x80#8 0x07#8) := by decide
theorem test_advance_wraps :
    shown .advance (at_ 79#7 24#5 0x0F#8 []) = some (0#7, 0#5, 0x0F#8, push 0x00#8 0x00#8) := by decide
/-- T9: a space is non-blank. -/
theorem test_retreat_space :
    shown .retreat (at_ 0#7 2#5 0x0F#8 [(159, 0x0020#16)]) =
      some (79#7, 1#5, 0x0F#8, .cellRead 159 :: push 0x9F#8 0x00#8) := by decide
/-- T9: an attribute alone leaves a cell blank. -/
theorem test_retreat_attribute :
    (ran (exec .retreat (at_ 0#7 2#5 0x0F#8 [(85, 0xFF00#16), (83, 0x0001#16)]))).map
      (fun t => (t.x, t.y, t.log.length)) = some (3#7, 1#5, 81) := by decide +kernel
/-- T10: from the last column but one. -/
theorem test_newline :
    shown .newline (at_ 78#7 24#5 0x0F#8 []) =
      some (0#7, 0#5, 0x0F#8, push 0xCF#8 0x07#8 ++ push 0x00#8 0x00#8) := by decide
/-- T10: (37, 5) takes 43 advances. -/
theorem test_newline_count :
    (ran (exec .newline (at_ 37#7 5#5 0x0F#8 []))).map (fun t => (t.x, t.y, t.log.length, t.hwCursor)) =
      some (0#7, 6#5, 172, 480#16) := by decide +kernel
/-- T6. -/
theorem test_setfg : shown (.setfg 15#4) (at_ 0#7 0#5 0x94#8 []) = some (0#7, 0#5, 0x9F#8, []) := by decide
theorem test_setbg : shown (.setbg 9#4) (at_ 0#7 0#5 0x14#8 []) = some (0#7, 0#5, 0x94#8, []) := by decide
/-- T11. -/
theorem test_setpos : shown (.setpos 79 24) ready = some (0#7, 0#5, 0x0F#8, push 0xCF#8 0x07#8) := by decide
theorem test_setpos_outOfBounds : shown (.setpos 80 0) ready = some (0#7, 0#5, 0x0F#8, []) := by decide
/-- T12, row 5. -/
theorem test_encode :
    (ran (exec (.encode 0x12345678#32 0xABCDE#20 0x5#4 0x9F#8) State.reset)).map State.result =
      some (.record ⟨0xDE#8, 0xBC#8, 0x78#8, 0x56#8, 0x34#8, 0x9F#8, 0x5A#8, 0x12#8⟩) := by decide
/-- T12, row 16. -/
theorem test_encode_tops :
    (ran (exec (.encode 0x80000000#32 0x80000#20 0x8#4 0x80#8) State.reset)).map State.result =
      some (.record ⟨0x00#8, 0x00#8, 0x00#8, 0x00#8, 0x00#8, 0x80#8, 0x88#8, 0x80#8⟩) := by decide
/-- T12, row 5. -/
theorem test_tovalue :
    (ran (exec (.tovalue ⟨0xDE#8, 0xBC#8, 0x78#8, 0x56#8, 0x34#8, 0x9F#8, 0x5A#8, 0x12#8⟩) State.reset)).map
      State.result = some (.value 0x125A9F345678BCDE#64) := by decide
/-- T13. -/
theorem test_nulldesc :
    (ran (exec .nulldesc State.reset)).map State.result =
      some (.record ⟨0#8, 0#8, 0#8, 0#8, 0#8, 0#8, 0#8, 0#8⟩) := by decide
/-- T14: byte 3 of the last descriptor's access field, at `GDT_ADDR + 21`. -/
theorem test_staticTable :
    staticTable.map recordValue = [0#64, 0x00CF9A000000FFFF#64, 0x00CF92000000FFFF#64] ∧
      State.reset.tableByte 21 = some 0x92#8 ∧ State.reset.tableByte 24 = none := by decide
/-- 20_memory.md R32: the character byte is the one at the even address. -/
theorem test_cell_bytes :
    (ran (exec (.wrcell 0 0 0x41#8) ready)).map (fun t => (Mem.read t.mem 0xB8000, Mem.read t.mem 0xB8001)) =
      some (0x41#8, 0x0F#8) := by decide

/-! ### Witnesses: a state and operands that meet the hypotheses of each statement, for each clause -/

theorem test_witness_DecodeEncodeRoundTrip :
    Instr.WellFormed (.wrcell 255 255 0#8) = true ∧ Instr.WellFormed (.setpos 255 255) = true ∧
      Instr.WellFormed (.wrbytes [0x48#8, 0x00#8]) = true ∧ Instr.WellFormed .init = true := by decide

/-- An accepted stream of each port, with bytes left over. -/
theorem test_witness_DecodedCommandIsItsEncoding :
    decode .display [0x00#8, 0x02#8, 0x00#8, 0x40#8, 0x48#8, 0x69#8, 0x7A#8] = .ok (.wrbytes [0x48#8, 0x69#8], [0x7A#8]) ∧
      decode .descriptor [0#8, 0#8, 0#8, 0#8, 0#8, 0#8, 0#8, 0#8, 0x00#8, 0x7A#8] = .ok (.nulldesc, [0x7A#8]) := by decide

/-- A header with a payload, one without, and one no row selects. -/
theorem test_witness_HeaderSelectsTableRow :
    payloadLength (0x40000400#32).toNat ≤ [0#8, 0#8, 0#8, 0#8].length ∧
      payloadLength (0xB0500000#32).toNat ≤ ([] : List Byte).length ∧
      payloadLength (0xC0000000#32).toNat ≤ ([] : List Byte).length := by decide

/-- Each clause at the edges of its range. -/
theorem test_witness_ReservedEncodingsRefused :
    (zOf 0x0F#8 ≠ 0#4) ∧ (zOf 0xC0#8 = 0#4 ∧ 0xC ≤ (opOf 0xC0#8).toNat) ∧ (zOf 0xF0#8 = 0#4 ∧ 0xC ≤ (opOf 0xF0#8).toNat) ∧
      (zOf 0x80#8 = 0#4 ∧ (opOf 0x80#8).toNat ∈ [0x0, 0x2, 0x5, 0x6, 0x7, 0x8]) ∧ (opOf 0x10#8).toNat = 0x1 ∧
      ((opOf 0xA0#8).toNat ∈ [0x9, 0xA] ∧ ¬(0x10#8).toNat < 16) ∧ (opOf 0xB0#8).toNat ∈ [0x4, 0xB] ∧
      ((opOf 0x40#8).toNat = 0x4 ∧ [0#8].length < (0#8).toNat * 256 + (2#8).toNat) ∧ [0#8, 0#8, 0#8].length < 4 ∧
      (zOf 0x30#8 = 0#4 ∧ 0x3 ≤ (opOf 0x30#8).toNat) ∧ (List.replicate 8 0#8).length < 9 := by decide

/-- One state with a display command and a descriptor request pending. -/
def pending : State :=
  { ready with
    turns := [.display, .descriptor]
    displayIn := [0x41#8, 0x00#8, 0x00#8, 0x10#8]
    requestIn := [0#8, 0#8, 0#8, 0#8, 0#8, 0#8, 0#8, 0#8, 0x00#8] }

theorem test_witness_StepRunsDecodedOperation :
    (pending.turns = .display :: [.descriptor] ∧ decodeDisplay pending.displayIn = .ok (.wrchar 0x41#8, [])) ∧
      ({ pending with turns := [.descriptor] }.turns = .descriptor :: [] ∧
        decodeRequest pending.requestIn = .ok (.nulldesc, [])) := by decide

theorem test_witness_StepRunsEncodedOperation : Instr.WellFormed (.wrcell 255 255 0x58#8) = true := by decide

theorem test_witness_StepRunsTableWord : ready.initDone = true ∧ decodeTableWord 32 0x4000FF00 ≠ none ∧
    decodeTableWord 72 0x000000000000000000 = some .nulldesc := by decide +kernel

theorem test_witness_StepRefusesWhatIsNoOperation :
    State.reset.turns = [] ∧ decodeDisplay [0#8, 0#8, 0#8, 0xC0#8] = .error .reservedOpcode ∧
      decodeRequest [1#8] = .error .truncatedRequest := by decide

/-- A step of each port that answers a next state. -/
theorem test_witness_StepConsumesOneCommand :
    (∃ t, step pending = .next t) ∧ ∃ t, step { pending with turns := [.descriptor] } = .next t := ⟨⟨_, rfl⟩, ⟨_, rfl⟩⟩

theorem test_witness_StepKeepsInvariant : pending.Inv ∧ pending.initDone = true ∧ ∃ t, step pending = .next t :=
  ⟨by decide, rfl, _, rfl⟩

/-- Launch contents at both ends of both windows. -/
theorem test_witness_LaunchMeetsInvariant :
    Config.default.WellFormed ∧ Mem.wf [(0xB8000, 1#8), (0xB8F9F, 2#8)] ∧
      Mem.within [(0xB8000, 1#8), (0xB8F9F, 2#8)] Config.default.vgaBase 4000 ∧ Mem.wf [(0, 1#8), (255, 2#8)] ∧
      Mem.within [(0, 1#8), (255, 2#8)] 0 256 := by decide

/-- The last position, from which the next one wraps. -/
def corner : State := { at_ 79#7 24#5 0x0F#8 [] with crtcReg := [(0x0E, 0x07#8), (0x0F, 0xCF#8)] }

theorem test_witness_PositionStaysInRange :
    corner.initDone = true ∧ corner.x.toNat ≤ 79 ∧ corner.y.toNat ≤ 24 ∧
      ∃ t, exec .advance corner = .next t ∧ t.initDone = true := ⟨rfl, by decide, by decide, _, rfl, rfl⟩

theorem test_witness_EveryOperationCompletes :
    corner.Inv ∧ corner.initDone = true := by decide

theorem test_witness_StepNeverFaults : corner.Inv := by decide

theorem test_witness_LaunchLeavesRegistersUnwritten :
    State.reset = State.launch Config.default 0#7 0#5 0#8 [] 0#8 [] := rfl

theorem test_witness_RefusedBeforeInit :
    State.reset.initDone = false ∧ readsRegisters .clear = true ∧ readsRegisters (.setpos 0 0) = false := by decide

theorem test_witness_RegisterValuesBeforeInitNeverShow : State.reset.initDone = false := rfl

theorem test_witness_RegisterFreeOperations :
    readsRegisters .init = false ∧ readsRegisters (.setpos 79 24) = false ∧ readsRegisters .nulldesc = false := by decide

theorem test_witness_OperationKeepsCursorInSync :
    Mem.wf corner.crtcReg ∧ corner.PositionInRange ∧ corner.InSync ∧ (∃ t, exec .advance corner = .next t) ∧
      ∃ t, exec (.setpos 79 24) corner = .next t := ⟨by decide, by decide, by decide, ⟨_, rfl⟩, ⟨_, rfl⟩⟩

/-- The hardware cursor of P5 after `SETPOS 79, 24`, with the position at the origin and off it: out of sync. -/
theorem test_witness_NextPushResynchronises :
    (∀ s ∈ [{ ready with crtcReg := corner.crtcReg }, { at_ 79#7 0#5 0x0F#8 [] with crtcReg := corner.crtcReg }],
      s.initDone = true ∧ s.PositionInRange ∧ Mem.wf s.crtcReg ∧ ¬s.InSync) ∧
      (ready.x.toNat = 0 ∧ ready.y.toNat = 0) ∧ ¬((at_ 79#7 0#5 0x0F#8 []).x.toNat = 0 ∧ (0#5).toNat = 0) ∧
      [0x48#8, 0x00#8].takeWhile (· != 0#8) ≠ [] ∧ [0x00#8, 0x41#8].takeWhile (· != 0#8) = [] := by decide

theorem test_witness_DirectSetposDesynchronises :
    Mem.wf corner.crtcReg ∧ corner.PositionInRange ∧ 79 < 80 ∧ 24 < 25 := by decide

theorem test_witness_CellsFollowTheEventHistory :
    ready.initDone = true ∧ Mem.wf ready.mem ∧ 24 < 25 ∧ 79 < 80 ∧
      (∀ n, ready.cell n = (lastWrite n ready.events).getD (ready.cell n)) ∧
      ∃ t, exec (.wrcell 24 79 0x58#8) ready = .next t := ⟨rfl, by decide, by decide, by decide, fun _ => rfl, _, rfl⟩

theorem test_witness_PortSequenceIsFixed : Mem.wf ready.mem ∧ ∃ t, exec (.wrchar 0x41#8) ready = .next t :=
  ⟨by decide, _, rfl⟩

theorem test_witness_OperationsWriteOnlyWhatTheyName :
    (∃ t, exec (.setpos 1 1) ready = .next t) ∧ writesPosition (.setpos 1 1) = false ∧ writesAttr (.setpos 1 1) = false ∧
      writesCells (.setpos 1 1) = false ∧ (∃ t, exec (.setfg 1#4) ready = .next t) ∧ drivesPorts (.setfg 1#4) = false :=
  ⟨⟨_, rfl⟩, rfl, rfl, rfl, ⟨_, rfl⟩, rfl⟩

theorem test_witness_DevicesOutsideTheProtocolUntouched :
    Mem.wf ready.mem ∧ (∃ t, exec .advance ready = .next t) ∧ 0xB7FFF < ready.cfg.vgaBase ∧
      ready.cfg.vgaBase + 4000 ≤ 0xB8FA0 ∧ 0x10 ≠ 0x0E := ⟨by decide, ⟨_, rfl⟩, by decide, by decide, by decide⟩

theorem test_witness_BlinkStaysClear :
    ready.cfg.WellFormed ∧ blink ready.attr = false ∧ (7#4).toNat < 8 ∧ ∃ t, exec (.setbg 7#4) ready = .next t :=
  ⟨by decide, by decide, by decide, _, rfl⟩

theorem test_witness_InitResult : Mem.wf corner.crtcReg := by decide

/-- The states that the results of the display operations speak of. -/
theorem test_witness_WrcharResult :
    (ready.initDone = true ∧ Mem.wf ready.mem ∧ ready.PositionInRange ∧ ready.x.toNat < 79) ∧
      ((at_ 79#7 23#5 0x0F#8 []).PositionInRange ∧ (at_ 79#7 23#5 0x0F#8 []).x.toNat = 79 ∧
        (at_ 79#7 23#5 0x0F#8 []).y.toNat < 24) ∧
      (corner.PositionInRange ∧ corner.x.toNat = 79 ∧ corner.y.toNat = 24) ∧
      ((at_ 80#7 0#5 0x0F#8 []).initDone = true ∧ Mem.wf (at_ 80#7 0#5 0x0F#8 []).mem ∧
        ¬(at_ 80#7 0#5 0x0F#8 []).PositionInRange) := by decide
theorem test_witness_DelcharResult : ready.initDone = true ∧ ready.PositionInRange ∧ Mem.wf ready.mem := by decide
/-- Both clauses where they meet, and the last encodable coordinates. -/
theorem test_witness_WrcellResult :
    ready.initDone = true ∧ Mem.wf ready.mem ∧ (25 ≤ 25 ∨ 80 ≤ 0) ∧ (25 ≤ 0 ∨ 80 ≤ 80) ∧ 24 < 25 ∧ 79 < 80 ∧ 255 < 256 ∧
      ∃ t u, exec (.wrcell 24 79 0x58#8) ready = .next t ∧ exec (.setfg 4#4) t = .next u :=
  ⟨rfl, by decide, by decide, by decide, by decide, by decide, by decide, _, _, rfl, rfl⟩
theorem test_witness_WrbytesResult : corner.initDone = true ∧ corner.PositionInRange ∧ Mem.wf corner.mem := by decide
theorem test_witness_WrbytesSplit : 0#8 ∉ [0x48#8, 0x69#8] := by decide
theorem test_witness_ClearResult : corner.initDone = true ∧ Mem.wf corner.mem := by decide
theorem test_witness_SetForegroundResult : ready.initDone = true := rfl
theorem test_witness_SetBackgroundResult : ready.initDone = true := rfl
theorem test_witness_AttributeNibblesAreIndependent :
    ready.initDone = true ∧ (∃ t, exec (.setfg 4#4) ready = .next t) ∧ ∃ t, exec (.setbg 9#4) ready = .next t :=
  ⟨rfl, ⟨_, rfl⟩, ⟨_, rfl⟩⟩
/-- The states of a run of `ADVANCE`s from (0, 0). -/
def advancing : Nat → State
  | 0 => ready
  | k + 1 => { advance (advancing k) with result := .nothing }

theorem test_witness_AdvanceResult_run :
    (advancing 0).initDone = true ∧ (advancing 0).x = 0#7 ∧ (advancing 0).y = 0#5 ∧
      ∀ k, exec .advance (advancing k) = .next (advancing (k + 1)) := by
  have hw : ∀ k : Nat, (advancing k).initDone = true := by
    intro k
    induction k with
    | zero => rfl
    | succ k ih => exact (congrArg State.initDone (advance_frame (advancing k))).trans ih
  exact ⟨rfl, rfl, rfl, fun k => afterInit_true (hw k) (complete .nothing (advance (advancing k)))⟩
/-- The three kinds of position. -/
theorem test_witness_AdvanceResult :
    (ready.initDone = true ∧ ready.PositionInRange ∧ ready.x.toNat < 79) ∧
      ((at_ 79#7 23#5 0x0F#8 []).PositionInRange ∧ (at_ 79#7 23#5 0x0F#8 []).x.toNat = 79 ∧
        (at_ 79#7 23#5 0x0F#8 []).y.toNat < 24) ∧
      corner.PositionInRange ∧ corner.x.toNat = 79 ∧ corner.y.toNat = 24 := by decide
theorem test_witness_AdvanceRepeated :
    (advancing 0).initDone = true ∧ (advancing 0).PositionInRange ∧
      ∀ k, k < 2000 → exec .advance (advancing k) = .next (advancing (k + 1)) :=
  ⟨rfl, by decide, fun k _ => test_witness_AdvanceResult_run.2.2.2 k⟩
theorem test_witness_RetreatResult :
    ready.initDone = true ∧ ready.PositionInRange ∧ ready.x.toNat = 0 ∧ ready.y.toNat = 0 := by decide
theorem test_witness_RowScanResult : 24 < 25 := by decide
theorem test_witness_NewlineResult : corner.initDone = true ∧ corner.PositionInRange := by decide
theorem test_witness_SetposResult :
    Mem.wf corner.crtcReg ∧ (80 ≤ 80 ∨ 25 ≤ 0) ∧ (80 ≤ 0 ∨ 25 ≤ 25) ∧ 79 < 80 ∧ 24 < 25 ∧ 255 < 256 := by decide
theorem test_witness_CursorIsTornInsideAPush :
    Mem.wf corner.crtcReg ∧ ∃ two three four,
      two = portWrite .data ((0x0100#16).extractLsb' 0 8) (portWrite .index 0x0F#8 corner) ∧
        three = portWrite .index 0x0E#8 two ∧ four = portWrite .data ((0x0100#16).extractLsb' 8 8) three :=
  ⟨by decide, _, _, _, rfl, rfl, rfl⟩
theorem test_witness_BothBoundsChecksAgree : ready.initDone = true := rfl
theorem test_witness_AddressDecodeIsABijection :
    Config.default.WellFormed ∧ 24 < 25 ∧ 79 < 80 ∧ 1999 < 2000 ∧ cellIndex 24 79 = 1999 := by decide
theorem test_witness_TovalueResult : recordValue nullRecord = recordValue (packRecord 0#32 0#20 0#4 0#8) := by decide
theorem test_witness_StaticTableImage : State.reset.TableConstant ∧ 2 < 3 ∧ 7 < 8 := by decide

end Sys2Proof.Tests
end

namespace Sys2Proof.Machine

/-! ### The position stays in range (10_state.md R16) -/

/-- 10_state.md R16 of one state: once `INIT` has completed, the position is in range. -/
def State.InRangeSinceInit (s : State) : Prop := s.initDone = true → s.PositionInRange

theorem setPosition_inRangeSinceInit (x y : Nat) {s : State} (h : s.InRangeSinceInit) :
    (setPosition x y s).InRangeSinceInit := by
  rw [setPosition_frame]; exact h

theorem writeCellAt_inRange (row col : Nat) (byte : Byte) {s : State} (h : s.PositionInRange) :
    (writeCellAt row col byte s).2.PositionInRange := by
  unfold writeCellAt; split <;> exact h

theorem clearScreen_inRange {s : State} (h : s.PositionInRange) : (clearScreen s).PositionInRange := by
  rw [State.PositionInRange, clearScreen_x, clearScreen_y]; exact h

theorem writeChar_inRange (byte : Byte) {s : State} (h : s.PositionInRange) :
    (writeChar byte s).PositionInRange :=
  (advance_spec (writeCellAt_inRange _ _ byte h)).1

theorem retreat_inRange {s t : State} (h : s.PositionInRange) (ht : retreat s = .ok t) : t.PositionInRange := by
  obtain ⟨u, hu, hr, -⟩ := retreat_spec h
  cases ht.symm.trans hu
  exact hr

theorem newLine_inRange {s : State} (h : s.PositionInRange) : (newLine s).PositionInRange := by
  rw [newLine_eq h]; exact (advances_spec _ h).1

/-- Returning a result does not touch the position. -/
theorem complete_inRangeSinceInit {r : Result} {u t : State} (h : complete r u = .next t)
    (hu : u.InRangeSinceInit) : t.InRangeSinceInit := by
  cases h; exact hu

/-- An operation guarded by `INIT` only has to keep a position in range, since it completes only after `INIT`. -/
theorem afterInit_complete_inRangeSinceInit {r : Result} {s u t : State} (hs : s.InRangeSinceInit)
    (h : afterInit s (complete r u) = .next t) (hu : s.PositionInRange → u.PositionInRange) :
    t.InRangeSinceInit := by
  obtain ⟨hd, hk⟩ := afterInit_next h
  exact complete_inRangeSinceInit hk fun _ => hu (hs hd)

/-- Every operation keeps R16: `INIT` establishes it, the guarded operations keep the range, and the others move
nothing. -/
theorem exec_inRangeSinceInit {i : Instr} {s t : State} (hs : s.InRangeSinceInit) (h : exec i s = .next t) :
    t.InRangeSinceInit := by
  cases i with
  | init =>
    exact complete_inRangeSinceInit h <|
      setPosition_inRangeSinceInit 0 0 fun _ => ⟨Nat.zero_lt_succ 79, Nat.zero_lt_succ 24⟩
  | wrchar byte => exact afterInit_complete_inRangeSinceInit hs h (writeChar_inRange byte)
  | delchar =>
    obtain ⟨hd, hk⟩ := afterInit_next h
    split at hk
    · cases hk
    · next u hu =>
      exact complete_inRangeSinceInit hk fun _ => writeCellAt_inRange _ _ _ (retreat_inRange (hs hd) hu)
  | wrcell row col byte => exact afterInit_complete_inRangeSinceInit hs h (writeCellAt_inRange row col byte)
  | wrbytes sequence => exact afterInit_complete_inRangeSinceInit hs h fun hr => (writeBytes_spec sequence hr).1
  | clear => exact afterInit_complete_inRangeSinceInit hs h clearScreen_inRange
  | advance => exact afterInit_complete_inRangeSinceInit hs h fun hr => (advance_spec hr).1
  | retreat =>
    obtain ⟨hd, hk⟩ := afterInit_next h
    split at hk
    · cases hk
    · next u hu => exact complete_inRangeSinceInit hk fun _ => retreat_inRange (hs hd) hu
  | newline => exact afterInit_complete_inRangeSinceInit hs h newLine_inRange
  | setfg color => exact afterInit_complete_inRangeSinceInit hs h id
  | setbg color => exact afterInit_complete_inRangeSinceInit hs h id
  | setpos x y => exact complete_inRangeSinceInit h (setPosition_inRangeSinceInit x y hs)
  | encode base limit flags access => exact complete_inRangeSinceInit h hs
  | tovalue record => exact complete_inRangeSinceInit h hs
  | nulldesc => exact complete_inRangeSinceInit h hs

/-- Settles O14: R16 is kept by every operation, with its bounds written as 79 and 24. -/
theorem positionStaysInRange : Obligations.PositionStaysInRange := by
  intro i s t hs h ht
  have hin : s.InRangeSinceInit := fun hd =>
    ⟨Nat.lt_succ_of_le (hs hd).1, Nat.lt_succ_of_le (hs hd).2⟩
  obtain ⟨hx, hy⟩ := exec_inRangeSinceInit hin h ht
  exact ⟨Nat.le_of_lt_succ hx, Nat.le_of_lt_succ hy⟩

end Sys2Proof.Machine

namespace Sys2Proof.Machine

/-! ### Cells follow the event history (20_memory.md R31) -/

/-- Of two histories one after the other, the later one decides wherever it writes the cell at all. -/
theorem lastWrite_append (n : Nat) (es fs : List Event) :
    lastWrite n (es ++ fs) = (lastWrite n fs).or (lastWrite n es) := by
  induction es with
  | nil => simp [lastWrite]
  | cons e es ih =>
    simp only [List.cons_append, lastWrite, ih]
    cases lastWrite n fs with
    | none => rfl
    | some v => rfl

theorem lastWrite_cellWrite_same (n : Nat) (v : CellWord) : lastWrite n [.cellWrite n v] = some v := if_pos rfl

theorem lastWrite_cellWrite_other {n i : Nat} (h : n ≠ i) (v : CellWord) : lastWrite n [.cellWrite i v] = none :=
  if_neg h.symm

/-- 20_memory.md R31 of one action: a cell holds what the action's own events last wrote to it, or what it held. -/
theorem cell_run {s : State} (hm : Mem.wf s.mem) (a : Action) (n : Nat) :
    (a.run s).cell n = (lastWrite n (a.events s.cfg)).getD (s.cell n) := by
  cases a with
  | store i v =>
    simp only [Action.run, Action.events]
    by_cases h : n = i
    · subst h
      rw [cell_cellWrite_same hm, lastWrite_cellWrite_same, Option.getD_some]
    · rw [cell_cellWrite_other s v h, lastWrite_cellWrite_other h, Option.getD_none]
  | moveTo x y => rfl
  | colour attr => rfl
  | begin => rfl
  | look i => rfl
  | push off => rfl

theorem wf_mem_run {s : State} (hm : Mem.wf s.mem) (a : Action) : Mem.wf (a.run s).mem := by
  cases a with
  | store i v => exact wf_storeCell hm (cellAddr s.cfg i) v
  | moveTo x y => exact hm
  | colour attr => exact hm
  | begin => exact hm
  | look i => exact hm
  | push off => exact hm

theorem events_run (a : Action) (s : State) : (a.run s).events = s.events ++ a.events s.cfg := by
  have h := (events_runActions [a] s).2
  rwa [List.flatMap_singleton] at h

/-- 20_memory.md R31 of one state: every cell holds the last value the event history wrote to it, or else its launch
content. -/
def State.FollowsHistory (launch : Nat → CellWord) (s : State) : Prop :=
  ∀ n, s.cell n = (lastWrite n s.events).getD (launch n)

theorem run_followsHistory {launch : Nat → CellWord} {s : State} (hm : Mem.wf s.mem) (hs : s.FollowsHistory launch)
    (a : Action) : (a.run s).FollowsHistory launch := by
  intro n
  rw [cell_run hm, hs n, events_run, lastWrite_append, Option.getD_or]

/-- Every operation keeps the cells in agreement with the history, since it goes by actions that each do. -/
theorem exec_followsHistory {launch : Nat → CellWord} {i : Instr} {s t : State} (hm : Mem.wf s.mem)
    (hs : s.FollowsHistory launch) (h : exec i s = .next t) : t.FollowsHistory launch := by
  obtain ⟨u, hd, ht⟩ := exec_does hm h
  have hu : Mem.wf u.mem ∧ u.FollowsHistory launch :=
    hd.keeps (P := fun v => Mem.wf v.mem ∧ v.FollowsHistory launch)
      (fun a v _ hv => ⟨wf_mem_run hv.1 a, run_followsHistory hv.1 hv.2 a⟩) ⟨hm, hs⟩
  rw [ht]
  exact hu.2

/-- After `INIT`, `WRCELL` on the screen writes its cell and returns 0 (40_display_cell_ops.md R73). -/
theorem exec_wrcell_inBounds {s : State} (hw : s.initDone = true) {row col : Nat} (hr : row < 25) (hc : col < 80)
    (byte : Byte) :
    exec (.wrcell row col byte) s =
      complete (.oob false) (cellWrite (cellIndex row col) (cellOf s.attr byte) s) := by
  simp only [exec, execWrcell, afterInit_true hw, writeCellAt_inBounds hr hc]

/-- Settles O20: reading back is the rule for a cell write; the agreement with the history is kept action by action. -/
theorem cellsFollowTheEventHistory : Obligations.CellsFollowTheEventHistory := by
  refine ⟨fun row col byte s hw hm hr hc => ?_, fun i s t launch hm hs h => exec_followsHistory hm hs h⟩
  have hcell := cell_cellWrite_same hm (cellIndex row col) (cellOf s.attr byte)
  refine ⟨_, exec_wrcell_inBounds hw hr hc byte, ?_, ?_⟩
  · exact (congrArg charByte hcell).trans (charByte_cellOf s.attr byte)
  · exact (congrArg attrByte hcell).trans (attrByte_cellOf s.attr byte)

end Sys2Proof.Machine

namespace Sys2Proof

/-! ### The table word of a display header -/

/-- A display header's word holds `op`, `a`, `b` and `c` in the fields of 30_encoding.md R51, with `z` zero. -/
theorem bytesOfWord_header {w : Nat} {op : BitVec 4} {a b c : Byte}
    (hw : w = op.toNat * 0x10000000 + a.toNat * 0x10000 + b.toNat * 0x100 + c.toNat) :
    bytesOfWord 4 w = headerBytes op a b c := by
  have ha := a.isLt
  have hb := b.isLt
  have hc := c.isLt
  have hop : (op ++ 0#4 : BitVec (4 + 4)).toNat = op.toNat * 16 := Machine.toNat_append_eq op 0#4
  simp only [bytesOfWord, headerBytes, List.cons.injEq, and_true]
  refine ⟨BitVec.eq_of_toNat_eq ?_, BitVec.eq_of_toNat_eq ?_, BitVec.eq_of_toNat_eq ?_, BitVec.eq_of_toNat_eq ?_⟩
  all_goals
    rw [BitVec.toNat_ofNat]
    omega

/-- A display header other than that of `WRBYTES` stands alone: its word is the operation its fields decode to
(30_encoding.md R51, R52, R53). -/
theorem decodeTableWord_header {w : Nat} {op : BitVec 4} {a b c : Byte} {i : Instr} (hop : op.toNat ≠ 4)
    (hw : w = op.toNat * 0x10000000 + a.toNat * 0x10000 + b.toNat * 0x100 + c.toNat)
    (hi : decodeHeader op.toNat a b c [] = .ok (i, [])) : decodeTableWord 32 w = some i := by
  have ha := a.isLt
  have hb := b.isLt
  have hc := c.isLt
  have ho := op.isLt
  have hlen : payloadLength w = 0 := if_neg (by omega)
  have hbytes : tableBytes 32 w = headerBytes op a b c ++ [] := by
    rw [← bytesOfWord_header hw]
    simp only [tableBytes, tablePort, hlen, List.replicate_zero]
    rfl
  have hdecode : decode (tablePort 32) (tableBytes 32 w) = .ok (i, []) := by
    rw [hbytes]
    exact (decodeDisplay_headerBytes op a b c []).trans hi
  simp only [decodeTableWord, hdecode]

end Sys2Proof

namespace Sys2Proof.Machine

/-! ### `SETFG` (40_display_cell_ops.md R76) -/

/-- Overwriting the low nibble is masking it off and putting the colour in. -/
theorem withForeground_eq (attr : Byte) (color : BitVec 4) :
    withForeground attr color = (attr &&& 0xF0#8) ||| color.setWidth 8 := by
  apply BitVec.eq_of_getLsbD_eq
  intro i hi
  simp only [withForeground, BitVec.getLsbD_append, BitVec.getLsbD_extractLsb', BitVec.getLsbD_or,
    BitVec.getLsbD_and, BitVec.getLsbD_setWidth]
  interval_cases i <;> simp

theorem exec_setfg {s : State} (hw : s.initDone = true) (color : BitVec 4) :
    exec (.setfg color) s = complete .nothing { s with attr := withForeground s.attr color } :=
  afterInit_true hw _

/-- The command word of `SETFG` (30_encoding.md R52). -/
theorem decodeTableWord_setfg (color : BitVec 4) :
    decodeTableWord 32 (0x90000000 + color.toNat) = some (.setfg color) := by
  refine decodeTableWord_header (op := 0x9#4) (a := 0#8) (b := 0#8) (c := 0#4 ++ color) (by decide) ?_
    (colorOperand_field color .setfg [])
  rw [toNat_append_eq]
  simp

/-- Settles O34: overwriting the low nibble is the masked form, and no other field is written. -/
theorem setForegroundResult : Obligations.SetForegroundResult := by
  intro color s hw
  refine ⟨?_, decodeTableWord_setfg color⟩
  rw [exec_setfg hw, withForeground_eq]
  rfl

end Sys2Proof.Machine

namespace Sys2Proof.Machine

/-! ### `WRCELL` (40_display_cell_ops.md R73) -/

/-- The command word of `WRCELL` (30_encoding.md R52). -/
theorem decodeTableWord_wrcell {row col : Nat} (hr : row < 256) (hc : col < 256) (byte : Byte) :
    decodeTableWord 32 (0x30000000 + row * 0x10000 + col * 0x100 + byte.toNat) = some (.wrcell row col byte) := by
  have hr' : (BitVec.ofNat 8 row).toNat = row := by rw [BitVec.toNat_ofNat]; omega
  have hc' : (BitVec.ofNat 8 col).toNat = col := by rw [BitVec.toNat_ofNat]; omega
  refine decodeTableWord_header (op := 0x3#4) (a := BitVec.ofNat 8 row) (b := BitVec.ofNat 8 col) (c := byte)
    (by decide) ?_ ?_
  · rw [hr', hc']
    rfl
  · show Except.ok (Instr.wrcell (BitVec.ofNat 8 row).toNat (BitVec.ofNat 8 col).toNat byte, []) = _
    rw [hr', hc']

/-- After `INIT`, `WRCELL` off the screen writes nothing and returns 1 (40_display_cell_ops.md R73). -/
theorem exec_wrcell_outOfBounds {s : State} (hw : s.initDone = true) {row col : Nat} (h : OutOfBounds row col)
    (byte : Byte) : exec (.wrcell row col byte) s = complete (.oob true) s := by
  simp only [exec, execWrcell, afterInit_true hw, writeCellAt_outOfBounds h]

/-- The event of a cell write is the newest of the history. -/
theorem events_cellWrite (i : Nat) (v : CellWord) (s : State) :
    (cellWrite i v s).events = s.events ++ [.cellWrite i v] := events_run (.store i v) s

/-- A change of a colour nibble changes no cell (40_display_cell_ops.md R73). -/
theorem cell_of_exec_setColor {color : BitVec 4} {t u : State}
    (h : exec (.setfg color) t = .next u ∨ exec (.setbg color) t = .next u) (i : Nat) : u.cell i = t.cell i := by
  rcases h with h | h <;>
  · cases (afterInit_next h).2
    rfl

/-- Settles O30: one lemma for each outcome of the bounds check, one for a later colour, one for the command word. -/
theorem wrcellResult : Obligations.WrcellResult := by
  intro row col byte s hw hm
  refine ⟨fun h => exec_wrcell_outOfBounds hw h byte, fun hr hc => ?_,
    fun color t u _ h => cell_of_exec_setColor h, fun hr hc => decodeTableWord_wrcell hr hc byte⟩
  refine ⟨_, exec_wrcell_inBounds hw hr hc byte, rfl, ?_, ?_, ?_⟩
  · exact cell_cellWrite_same hm (cellIndex row col) (cellOf s.attr byte)
  · exact fun a => read_storeCell_other s.mem (cellOf s.attr byte)
  · exact events_cellWrite (cellIndex row col) (cellOf s.attr byte) s

end Sys2Proof.Machine

namespace Sys2Proof.Machine

/-! ### The three moves of an advance (41_display_position.md R90) -/

/-- One column on; from the last column to the row below; from the last cell of the screen to the origin. -/
theorem nextPosition_moves (x : BitVec 7) (y : BitVec 5) :
    (x.toNat < 79 → (nextPosition x y).1.toNat = x.toNat + 1 ∧ (nextPosition x y).2 = y) ∧
      (x.toNat = 79 → y.toNat < 24 → (nextPosition x y).1 = 0#7 ∧ (nextPosition x y).2.toNat = y.toNat + 1) ∧
      (x.toNat = 79 → y.toNat = 24 → (nextPosition x y).1 = 0#7 ∧ (nextPosition x y).2 = 0#5) := by
  refine ⟨fun hx => ?_, fun hx hy => ?_, fun hx hy => ?_⟩
  · rw [nextPosition, if_neg (by bv_omega)]
    exact ⟨by bv_omega, rfl⟩
  · rw [nextPosition, if_pos (by bv_omega), if_neg (by bv_omega)]
    exact ⟨rfl, by bv_omega⟩
  · rw [nextPosition, if_pos (by bv_omega), if_pos (by bv_omega)]
    exact ⟨rfl, rfl⟩

@[simp] theorem advance_mem (s : State) : (advance s).mem = s.mem := by rw [advance_frame]

@[simp] theorem advance_cfg (s : State) : (advance s).cfg = s.cfg := by rw [advance_frame]

/-- In range, an advance shows the push of the position it leads to, and nothing else. -/
theorem events_advance {s : State} (h : s.PositionInRange) :
    (advance s).events = s.events ++ pushEvents s.cfg (BitVec.ofNat 16 (advance s).offset) := by
  obtain ⟨-, hoff, -, -, hlog⟩ := advance_spec h
  simp only [State.events, hlog, hoff, List.reverse_append, List.reverse_reverse]

/-! ### `WRCHAR` (40_display_cell_ops.md R71) -/

/-- The command word of `WRCHAR` (30_encoding.md R52). -/
theorem decodeTableWord_wrchar (byte : Byte) :
    decodeTableWord 32 (0x10000000 + byte.toNat) = some (.wrchar byte) :=
  decodeTableWord_header (op := 0x1#4) (a := 0#8) (b := 0#8) (c := byte) (by decide) rfl rfl

theorem exec_wrchar {s : State} (hw : s.initDone = true) (byte : Byte) :
    exec (.wrchar byte) s = complete .nothing (writeChar byte s) := afterInit_true hw _

/-- Off the screen, the inner write does nothing, so a character is an advance (40_display_cell_ops.md R71). -/
theorem writeChar_outOfRange {s : State} (h : ¬s.PositionInRange) (byte : Byte) : writeChar byte s = advance s := by
  have hb : OutOfBounds s.y.toNat s.x.toNat := by
    unfold State.PositionInRange at h
    unfold OutOfBounds
    omega
  rw [writeChar, writeCellAt_outOfBounds hb]

theorem writeChar_x {s : State} (h : s.PositionInRange) (byte : Byte) :
    (writeChar byte s).x = (nextPosition s.x s.y).1 := by
  rw [writeChar_eq h, advance_x, cellWrite_x, cellWrite_y]

theorem writeChar_y {s : State} (h : s.PositionInRange) (byte : Byte) :
    (writeChar byte s).y = (nextPosition s.x s.y).2 := by
  rw [writeChar_eq h, advance_y, cellWrite_x, cellWrite_y]

theorem writeChar_mem {s : State} (h : s.PositionInRange) (byte : Byte) :
    (writeChar byte s).mem = storeCell s.mem (cellAddr s.cfg s.offset) (cellOf s.attr byte) := by
  rw [writeChar_eq h, advance_mem, cellWrite_mem]

/-- In range, the cell at the position holds the byte under `ATTR`. -/
theorem cell_writeChar {s : State} (h : s.PositionInRange) (hm : Mem.wf s.mem) (byte : Byte) :
    (writeChar byte s).cell s.offset = cellOf s.attr byte := by
  rw [writeChar_eq h, cell_congr (advance_cfg _) (advance_mem _), cell_cellWrite_same hm]

/-- In range, a character shows its cell write and then the push of the next position. -/
theorem events_writeChar {s : State} (h : s.PositionInRange) (byte : Byte) :
    (writeChar byte s).events =
      s.events ++ .cellWrite s.offset (cellOf s.attr byte) ::
        pushEvents s.cfg (BitVec.ofNat 16 (writeChar byte s).offset) := by
  have hr : (cellWrite s.offset (cellOf s.attr byte) s).PositionInRange := h
  rw [writeChar_eq h, events_advance hr, events_cellWrite, List.append_assoc]
  rfl

/-- Settles O28: the write, the frame, the three moves and the events of `write_char`, each by its lemma; the index of
the position's cell is its offset. -/
theorem wrcharResult : Obligations.WrcharResult := by
  intro byte s hw hm
  refine ⟨fun h => ?_, fun h => ?_, decodeTableWord_wrchar byte⟩
  · obtain ⟨hcolumn, hrow, hscreen⟩ := nextPosition_moves s.x s.y
    rw [← writeChar_x h byte, ← writeChar_y h byte] at hcolumn hrow hscreen
    refine ⟨_, exec_wrchar hw byte, ?_, cell_writeChar h hm byte, fun a ha ha' => ?_, hcolumn, hrow, hscreen,
      events_writeChar h byte⟩
    · exact congrArg (fun u : State => { u with result := .nothing }) (writeChar_writesOnly byte s)
    · exact (congrArg (Mem.read · a) (writeChar_mem h byte)).trans (read_storeCell_other s.mem _ ha ha')
  · rw [exec_wrchar hw, writeChar_outOfRange h]
    exact (afterInit_true hw _).symm

end Sys2Proof.Machine

namespace Sys2Proof.Machine

/-! ### `ADVANCE` (41_display_position.md R90) -/

theorem exec_advance {s : State} (hw : s.initDone = true) : exec .advance s = complete .nothing (advance s) :=
  afterInit_true hw _

/-- An `ADVANCE` that completes returns nothing and has advanced. -/
theorem eq_advance_of_exec_advance {s t : State} (h : exec .advance s = .next t) :
    t = { advance s with result := .nothing } := by
  cases (afterInit_next h).2
  rfl

/-- In range, column and row are the remainder and the quotient of the offset by the width of a row. -/
theorem position_of_offset {s : State} (h : s.PositionInRange) :
    s.x.toNat = s.offset % 80 ∧ s.y.toNat = s.offset / 80 := by
  obtain ⟨hx, hy⟩ := h
  unfold State.offset
  omega

/-- A run of `n` `ADVANCE`s stays in range and moves the offset on by `n` modulo 2000. -/
theorem offset_of_advance_run {run : Nat → State} (hr : (run 0).PositionInRange) (n : Nat)
    (h : ∀ k, k < n → exec .advance (run k) = .next (run (k + 1))) :
    (run n).PositionInRange ∧ (run n).offset = ((run 0).offset + n) % 2000 := by
  induction n with
  | zero => exact ⟨hr, (Nat.mod_eq_of_lt (offset_lt hr)).symm⟩
  | succ n ih =>
    obtain ⟨hin, hoff⟩ := ih fun k hk => h k (Nat.lt_succ_of_lt hk)
    obtain ⟨hin', hoff', -⟩ := advance_spec hin
    rw [eq_advance_of_exec_advance (h n n.lt_succ_self)]
    refine ⟨hin', hoff'.trans ?_⟩
    rw [hoff, Nat.mod_add_mod, Nat.add_assoc]

/-- A run of `n` `ADVANCE`s from (0, 0) ends at the position whose offset is `n` modulo 2000. -/
theorem position_of_advance_run_from_origin {run : Nat → State} (hx : (run 0).x = 0#7) (hy : (run 0).y = 0#5) (n : Nat)
    (h : ∀ k, k < n → exec .advance (run k) = .next (run (k + 1))) :
    (run n).x = BitVec.ofNat 7 (n % 2000 % 80) ∧ (run n).y = BitVec.ofNat 5 (n % 2000 / 80) := by
  have hr : (run 0).PositionInRange := by simp [State.PositionInRange, hx, hy]
  have h0 : (run 0).offset = 0 := by simp [State.offset, hx, hy]
  obtain ⟨hin, hoff⟩ := offset_of_advance_run hr n h
  obtain ⟨hcol, hrow⟩ := position_of_offset hin
  rw [hoff, h0, Nat.zero_add] at hcol hrow
  rw [← hcol, ← hrow, BitVec.ofNat_toNat, BitVec.ofNat_toNat, BitVec.setWidth_eq, BitVec.setWidth_eq]
  exact ⟨rfl, rfl⟩

/-- The command word of `ADVANCE` (30_encoding.md R52). -/
theorem decodeTableWord_advance : decodeTableWord 32 0x60000000 = some .advance :=
  decodeTableWord_header (op := 0x6#4) (a := 0#8) (b := 0#8) (c := 0#8) (by decide) rfl rfl

/-- Settles O37: the frame, the three moves and the push of one advance, each by its lemma; the runs of 80 and of 2000
by the offset that a run from the origin reaches. -/
theorem advanceResult : Obligations.AdvanceResult := by
  refine ⟨fun s hw hr => ?_, fun run _ hx hy => ⟨position_of_advance_run_from_origin hx hy 80,
    position_of_advance_run_from_origin hx hy 2000⟩, decodeTableWord_advance⟩
  obtain ⟨hcolumn, hrow, hscreen⟩ := nextPosition_moves s.x s.y
  rw [← advance_x s, ← advance_y s] at hcolumn hrow hscreen
  refine ⟨_, exec_advance hw, ?_, hcolumn, hrow, hscreen, events_advance hr⟩
  exact congrArg (fun u : State => { u with result := .nothing }) (advance_movesOnly s)

end Sys2Proof.Machine

namespace Sys2Proof

/-! ### Bytes and the number they stand for (30_encoding.md R54, 43_descriptor_encoder.md R112) -/

/-- Bytes are the base-256 digits of the number they stand for, least significant first. -/
theorem bytesOfWord_ofDigits (bytes : List Byte) :
    bytesOfWord bytes.length (Nat.ofDigits 256 (bytes.map BitVec.toNat)) = bytes := by
  induction bytes with
  | nil => rfl
  | cons q bytes ih =>
    have hq := q.isLt
    rw [List.map_cons, Nat.ofDigits_cons, List.length_cons, bytesOfWord]
    congr 1
    · exact BitVec.eq_of_toNat_eq (by rw [BitVec.toNat_ofNat]; omega)
    · rw [show ∀ n, (q.toNat + 256 * n) / 256 = n by omega, ih]

/-- A request's word is its nine bytes read as a number; it decodes to what its bytes decode to. -/
theorem decodeTableWord_request {w : Nat} {i : Instr} (hlen : (encodeInstr i).length = 9)
    (hw : w = Nat.ofDigits 256 ((encodeInstr i).map BitVec.toNat))
    (hi : decodeRequest (encodeInstr i) = .ok (i, [])) : decodeTableWord 72 w = some i := by
  have hbytes : bytesOfWord 9 w = encodeInstr i := by
    rw [hw, ← hlen]
    exact bytesOfWord_ofDigits _
  have hdecode : decode (tablePort 72) (tableBytes 72 w) = .ok (i, []) :=
    (congrArg decodeRequest hbytes).trans hi
  simp only [decodeTableWord, hdecode]

/-- The limit is put back together from its two bytes and the nibble below the flags. -/
theorem join_limit (flags : BitVec 4) (limit : BitVec 20) :
    ((flags ++ limit.extractLsb' 16 4 : BitVec (4 + 4)).extractLsb' 0 4 ++ limit.extractLsb' 8 8 ++
      limit.extractLsb' 0 8 : BitVec (4 + 8 + 8)) = limit := by
  have hnibble := zOf_header flags (limit.extractLsb' 16 4)
  rw [zOf] at hnibble
  rw [hnibble, join_bytes20]

/-- The operands of an `ENCODE` request are read back (30_encoding.md R54). -/
theorem decodeRequest_encode (base : BitVec 32) (limit : BitVec 20) (flags : BitVec 4) (access : Byte)
    (rest : List Byte) :
    decodeRequest (encodeInstr (.encode base limit flags access) ++ rest) =
      .ok (.encode base limit flags access, rest) := by
  have hflags := opOf_header flags (limit.extractLsb' 16 4)
  show Except.ok (Instr.encode (_ ++ _ ++ _ ++ _) (_ ++ _ ++ _) (opOf _) access, rest) = _
  rw [join_bytes32, join_limit, hflags]

end Sys2Proof

namespace Sys2Proof.Machine

/-! ### The record and its fields (43_descriptor_encoder.md R110) -/

@[simp] theorem recordBase_packRecord (base : BitVec 32) (limit : BitVec 20) (flags : BitVec 4) (access : Byte) :
    recordBase (packRecord base limit flags access) = base := join_bytes32 base

@[simp] theorem recordLimit_packRecord (base : BitVec 32) (limit : BitVec 20) (flags : BitVec 4) (access : Byte) :
    recordLimit (packRecord base limit flags access) = limit := join_limit flags limit

@[simp] theorem recordFlags_packRecord (base : BitVec 32) (limit : BitVec 20) (flags : BitVec 4) (access : Byte) :
    recordFlags (packRecord base limit flags access) = flags := opOf_header flags _

@[simp] theorem recordAccess_packRecord (base : BitVec 32) (limit : BitVec 20) (flags : BitVec 4) (access : Byte) :
    recordAccess (packRecord base limit flags access) = access := rfl

/-- The record determines the fields it was made from. -/
theorem packRecord_inj {base base' : BitVec 32} {limit limit' : BitVec 20} {flags flags' : BitVec 4}
    {access access' : Byte} (h : packRecord base limit flags access = packRecord base' limit' flags' access') :
    base = base' ∧ limit = limit' ∧ flags = flags' ∧ access = access' :=
  ⟨by simpa using congrArg recordBase h, by simpa using congrArg recordLimit h,
    by simpa using congrArg recordFlags h, by simpa using congrArg recordAccess h⟩

/-! ### `ENCODE` (43_descriptor_encoder.md R111) -/

/-- A byte of a field is a base-256 digit of the field's number. -/
theorem extractLsb'_eq_ofNat_div {n : Nat} (b : BitVec n) (k : Nat) :
    b.extractLsb' k 8 = BitVec.ofNat 8 (b.toNat / 2 ^ k) :=
  congrArg (BitVec.ofNat 8) (Nat.shiftRight_eq_div_pow b.toNat k)

/-- The command word of `ENCODE` (30_encoding.md R54). -/
theorem decodeTableWord_encode (base : BitVec 32) (limit : BitVec 20) (flags : BitVec 4) (access : Byte) :
    decodeTableWord 72
      (0x100000000000000000 + access.toNat * 0x100000000000000 + flags.toNat * 0x10000000000000 +
        limit.toNat * 0x100000000 + base.toNat) = some (.encode base limit flags access) := by
  have hbase := base.isLt
  have hlimit := limit.isLt
  refine decodeTableWord_request rfl ?_ (decodeRequest_encode base limit flags access [])
  simp only [encodeInstr, List.map_cons, List.map_nil, Nat.ofDigits_cons, Nat.ofDigits_nil,
    BitVec.extractLsb'_toNat, toNat_append_eq, Nat.shiftRight_eq_div_pow, BitVec.toNat_ofNat]
  omega

/-- Settles O46: each byte of the record is a digit of its field, and byte 6 the flags above the limit's upper nibble. -/
theorem encodeResult : Obligations.EncodeResult := by
  intro base limit flags access s
  refine ⟨?_, decodeTableWord_encode base limit flags access⟩
  have hlimit := limit.isLt
  have hnibbles : flags ++ limit.extractLsb' 16 4 = BitVec.ofNat 8 (flags.toNat * 16 + limit.toNat / 0x10000) := by
    apply BitVec.eq_of_toNat_eq
    rw [toNat_append_eq, BitVec.extractLsb'_toNat, BitVec.toNat_ofNat, Nat.shiftRight_eq_div_pow]
    omega
  show Host.Outcome.next { s with result := .record (packRecord base limit flags access) } = _
  simp only [packRecord, hnibbles, extractLsb'_eq_ofNat_div, pow_zero, Nat.div_one]
  rfl

/-! ### `TOVALUE` (43_descriptor_encoder.md R112) -/

/-- The value of a record is the number its bytes stand for. -/
theorem recordValue_toNat (d : Descriptor) :
    (recordValue d).toNat = Nat.ofDigits 256 ((recordBytes d).map BitVec.toNat) := by
  rw [recordValue_eq_append]
  simp only [recordBytes, List.map_cons, List.map_nil, Nat.ofDigits_cons, Nat.ofDigits_nil,
    toNat_append_eq]
  omega

/-- The value of a record is the little-endian sum of its bytes. -/
theorem recordValue_eq_sum (d : Descriptor) :
    recordValue d = BitVec.ofNat 64
      (d.d0.toNat + d.d1.toNat * 2 ^ 8 + d.d2.toNat * 2 ^ 16 + d.d3.toNat * 2 ^ 24 + d.d4.toNat * 2 ^ 32 +
        d.d5.toNat * 2 ^ 40 + d.d6.toNat * 2 ^ 48 + d.d7.toNat * 2 ^ 56) := by
  rw [← BitVec.setWidth_eq (recordValue d), ← BitVec.ofNat_toNat, recordValue_toNat]
  refine congrArg (BitVec.ofNat 64) ?_
  simp only [recordBytes, List.map_cons, List.map_nil, Nat.ofDigits_cons, Nat.ofDigits_nil]
  omega

/-- The bytes of a record are the digits of its value. -/
theorem bytesOfWord_recordValue (d : Descriptor) : bytesOfWord 8 (recordValue d).toNat = recordBytes d := by
  rw [recordValue_toNat]
  exact bytesOfWord_ofDigits (recordBytes d)

/-- The value of a record determines the record, whose bytes are its digits. -/
theorem recordValue_inj {d e : Descriptor} (h : recordValue d = recordValue e) : d = e := by
  have hbytes : recordBytes d = recordBytes e := by
    rw [← bytesOfWord_recordValue d, h, bytesOfWord_recordValue]
  cases d
  cases e
  simpa [recordBytes] using hbytes

/-- The value of a record by fields: each part of a field at its bit position (43_descriptor_encoder.md R112). -/
theorem recordValue_packRecord (base : BitVec 32) (limit : BitVec 20) (flags : BitVec 4) (access : Byte) :
    recordValue (packRecord base limit flags access) =
      (limit.extractLsb' 0 16).setWidth 64 ||| (base.extractLsb' 0 24).setWidth 64 <<< 16 |||
        access.setWidth 64 <<< 40 ||| (limit.extractLsb' 16 4).setWidth 64 <<< 48 |||
        flags.setWidth 64 <<< 52 ||| (base.extractLsb' 24 8).setWidth 64 <<< 56 := by
  rw [recordValue_eq_append]
  apply BitVec.eq_of_getLsbD_eq
  intro i hi
  simp only [packRecord, BitVec.getLsbD_append, BitVec.getLsbD_or, BitVec.getLsbD_shiftLeft, BitVec.getLsbD_setWidth,
    BitVec.getLsbD_extractLsb']
  interval_cases i <;> simp

/-- The command word of `TOVALUE` (30_encoding.md R54). -/
theorem decodeTableWord_tovalue (d : Descriptor) :
    decodeTableWord 72 (0x200000000000000000 + (recordValue d).toNat) = some (.tovalue d) := by
  have hbytes : encodeInstr (.tovalue d) = recordBytes d ++ [0x20#8] := rfl
  refine decodeTableWord_request rfl ?_ rfl
  rw [hbytes, List.map_append, Nat.ofDigits_append, recordValue_toNat, Nat.add_comm]
  simp [recordBytes]

/-- Settles O47: the value is the number of the record's bytes, which gives the sum and both ways back. -/
theorem tovalueResult : Obligations.TovalueResult := by
  refine ⟨fun d s => ⟨?_, decodeTableWord_tovalue d⟩, recordValue_packRecord, fun _ _ => recordValue_inj,
    fun _ _ _ _ _ _ _ _ h => packRecord_inj (recordValue_inj h)⟩
  rw [← recordValue_eq_sum]
  rfl

/-! ### `NULLDESC` (43_descriptor_encoder.md R113) -/

/-- Settles O48: the packing of zero fields is the null record. -/
theorem nulldescResult : Obligations.NulldescResult := by
  have hzero : packRecord 0#32 0#20 0#4 0#8 = nullRecord := by decide
  refine ⟨fun s => ⟨rfl, ?_⟩, by decide, rfl, decodeTableWord_request rfl rfl rfl⟩
  show _ = complete (.record (packRecord 0#32 0#20 0#4 0#8)) s
  rw [hzero]
  rfl

end Sys2Proof.Machine

namespace Sys2Proof

/-! ### Encoding and decoding undo each other (30_encoding.md R51 to R54) -/

/-- Zero operand fields are what an operation without operands asks for. -/
theorem noOperand_zero (i : Instr) (rest : List Byte) : noOperand 0#8 0#8 0#8 i rest = .ok (i, rest) :=
  if_pos ⟨rfl, rfl, rfl⟩

/-- The payload of a `WRBYTES` is read back by its length (30_encoding.md R53). -/
theorem payloadOperand_length {sequence : List Byte} (h : sequence.length < 65536) (rest : List Byte) :
    payloadOperand (BitVec.ofNat 8 (sequence.length / 256)) (BitVec.ofNat 8 sequence.length) 0#8 (sequence ++ rest) =
      .ok (.wrbytes sequence, rest) := by
  rw [payloadOperand, if_pos rfl, lenOf_bytes h, if_pos (by simp), List.take_left, List.drop_left]

/-- The display port decodes a header, with what follows it, to what its fields say. -/
theorem decode_header {op : BitVec 4} {a b c : Byte} {i : Instr} {more rest : List Byte}
    (h : decodeHeader op.toNat a b c more = .ok (i, rest)) :
    decode .display (headerBytes op a b c ++ more) = .ok (i, rest) :=
  (decodeDisplay_headerBytes op a b c more).trans h

theorem ofNat_toNat_byte {n : Nat} (h : n < 256) : (BitVec.ofNat 8 n).toNat = n := by
  rw [BitVec.toNat_ofNat]; omega

/-- Every well-formed operation is read back from its own command, whatever follows it. -/
theorem decode_encodeInstr {i : Instr} (hi : i.WellFormed = true) (rest : List Byte) :
    decode i.port (encodeInstr i ++ rest) = .ok (i, rest) := by
  cases i with
  | init => exact decode_header (noOperand_zero _ rest)
  | wrchar byte => exact decode_header rfl
  | delchar => exact decode_header (noOperand_zero _ rest)
  | wrcell row col byte =>
    simp only [Instr.WellFormed, Bool.and_eq_true, decide_eq_true_eq] at hi
    obtain ⟨hrow, hcol⟩ := hi
    refine decode_header ?_
    show Except.ok (Instr.wrcell (BitVec.ofNat 8 row).toNat (BitVec.ofNat 8 col).toNat byte, rest) = _
    rw [ofNat_toNat_byte hrow, ofNat_toNat_byte hcol]
  | wrbytes sequence =>
    have hlen : sequence.length < 65536 := of_decide_eq_true hi
    rw [encodeInstr, List.append_assoc]
    exact decode_header (payloadOperand_length hlen rest)
  | clear => exact decode_header (noOperand_zero _ rest)
  | advance => exact decode_header (noOperand_zero _ rest)
  | retreat => exact decode_header (noOperand_zero _ rest)
  | newline => exact decode_header (noOperand_zero _ rest)
  | setfg color => exact decode_header (colorOperand_field color .setfg rest)
  | setbg color => exact decode_header (colorOperand_field color .setbg rest)
  | setpos x y =>
    simp only [Instr.WellFormed, Bool.and_eq_true, decide_eq_true_eq] at hi
    obtain ⟨hx, hy⟩ := hi
    refine decode_header ?_
    show Except.ok (Instr.setpos (BitVec.ofNat 8 x).toNat (BitVec.ofNat 8 y).toNat, rest) = _
    rw [ofNat_toNat_byte hx, ofNat_toNat_byte hy]
  | encode base limit flags access => exact decodeRequest_encode base limit flags access rest
  | tovalue record => rfl
  | nulldesc => rfl

/-- Settles O1: one command after another, by the lemma for the shape of its operands. -/
theorem decodeEncodeRoundTrip : Obligations.DecodeEncodeRoundTrip :=
  fun _ rest hi => decode_encodeInstr hi rest

/-- `i` is an operation of port `p`, and its command followed by `rest` is the whole of `bytes`. -/
def Instr.HeadOf (i : Instr) (p : Port) (rest bytes : List Byte) : Prop :=
  i.WellFormed = true ∧ i.port = p ∧ bytes = encodeInstr i ++ rest

theorem noOperand_ok {a b c : Byte} {i j : Instr} {rest rest' : List Byte}
    (h : noOperand a b c i rest = .ok (j, rest')) : (a = 0#8 ∧ b = 0#8 ∧ c = 0#8) ∧ j = i ∧ rest' = rest := by
  unfold noOperand at h
  split at h
  · next hz => cases h; exact ⟨hz, rfl, rfl⟩
  · cases h

theorem colorOperand_ok {a b c : Byte} {i : BitVec 4 → Instr} {j : Instr} {rest rest' : List Byte}
    (h : colorOperand a b c i rest = .ok (j, rest')) :
    ∃ color, (a = 0#8 ∧ b = 0#8 ∧ c = 0#4 ++ color) ∧ j = i color ∧ rest' = rest := by
  unfold colorOperand at h
  split at h
  · next hz =>
    obtain ⟨ha, hb, hc⟩ := hz
    cases h
    exact ⟨_, ⟨ha, hb, by rw [← hc]; exact (join_nibbles c).symm⟩, rfl, rfl⟩
  · cases h

/-- The two bytes of a header that hold a length are those of the length. -/
theorem bytes_lenOf (a b : Byte) : BitVec.ofNat 8 (lenOf a b / 256) = a ∧ BitVec.ofNat 8 (lenOf a b) = b := by
  have ha := a.isLt
  have hb := b.isLt
  constructor <;>
  · apply BitVec.eq_of_toNat_eq
    simp only [lenOf, BitVec.toNat_ofNat]
    omega

theorem payloadOperand_ok {a b c : Byte} {i : Instr} {rest rest' : List Byte}
    (h : payloadOperand a b c rest = .ok (i, rest')) :
    c = 0#8 ∧ ∃ sequence, sequence.length = lenOf a b ∧ i = .wrbytes sequence ∧ rest = sequence ++ rest' := by
  unfold payloadOperand at h
  split at h
  · next hc =>
    split at h
    · next hl =>
      cases h
      exact ⟨hc, _, List.length_take_of_le hl, rfl, (List.take_append_drop _ _).symm⟩
    · cases h
  · cases h

/-- An accepted header without operands is its operation's own command. -/
theorem headOf_noOperand {op : BitVec 4} {a b c : Byte} {i j : Instr} {rest rest' : List Byte}
    (hw : i.WellFormed = true) (hp : i.port = .display) (he : encodeInstr i = headerBytes op 0#8 0#8 0#8)
    (h : noOperand a b c i rest = .ok (j, rest')) : j.HeadOf .display rest' (headerBytes op a b c ++ rest) := by
  obtain ⟨⟨rfl, rfl, rfl⟩, rfl, rfl⟩ := noOperand_ok h
  exact ⟨hw, hp, by rw [he]⟩

/-- An accepted header with a colour is its operation's own command. -/
theorem headOf_colorOperand {op : BitVec 4} {a b c : Byte} {i : BitVec 4 → Instr} {j : Instr}
    {rest rest' : List Byte} (hw : ∀ color, (i color).WellFormed = true) (hp : ∀ color, (i color).port = .display)
    (he : ∀ color, encodeInstr (i color) = headerBytes op 0#8 0#8 (0#4 ++ color))
    (h : colorOperand a b c i rest = .ok (j, rest')) : j.HeadOf .display rest' (headerBytes op a b c ++ rest) := by
  obtain ⟨color, ⟨rfl, rfl, rfl⟩, rfl, rfl⟩ := colorOperand_ok h
  exact ⟨hw color, hp color, by rw [he]⟩

/-- What a header is accepted as has that header, and the payload the header asks for, as its command
(30_encoding.md R52, R53). -/
theorem headOf_decodeHeader {op : Nat} {a b c : Byte} {i : Instr} {rest rest' : List Byte}
    (h : decodeHeader op a b c rest = .ok (i, rest')) :
    i.HeadOf .display rest' (headerBytes (BitVec.ofNat 4 op) a b c ++ rest) := by
  have ha := a.isLt
  have hb := b.isLt
  unfold decodeHeader at h
  split at h
  case h_1 => exact headOf_noOperand rfl rfl rfl h
  case h_2 =>
    split at h
    · next hz => obtain ⟨rfl, rfl⟩ := hz; cases h; exact ⟨rfl, rfl, rfl⟩
    · cases h
  case h_3 => exact headOf_noOperand rfl rfl rfl h
  case h_4 =>
    cases h
    refine ⟨by simp [Instr.WellFormed, ha, hb], rfl, ?_⟩
    simp only [encodeInstr, BitVec.ofNat_toNat, BitVec.setWidth_eq]
  case h_5 =>
    obtain ⟨rfl, sequence, hlen, rfl, rfl⟩ := payloadOperand_ok h
    refine ⟨decide_eq_true ?_, rfl, ?_⟩
    · rw [hlen, lenOf]; omega
    · simp only [encodeInstr, hlen, bytes_lenOf, List.append_assoc]
  case h_6 => exact headOf_noOperand rfl rfl rfl h
  case h_7 => exact headOf_noOperand rfl rfl rfl h
  case h_8 => exact headOf_noOperand rfl rfl rfl h
  case h_9 => exact headOf_noOperand rfl rfl rfl h
  case h_10 => exact headOf_colorOperand (fun _ => rfl) (fun _ => rfl) (fun _ => rfl) h
  case h_11 => exact headOf_colorOperand (fun _ => rfl) (fun _ => rfl) (fun _ => rfl) h
  case h_12 =>
    split at h
    · next hc =>
      subst hc
      cases h
      refine ⟨by simp [Instr.WellFormed, ha, hb], rfl, ?_⟩
      simp only [encodeInstr, BitVec.ofNat_toNat, BitVec.setWidth_eq]
    · cases h
  case h_13 => cases h

theorem headOf_decodeDisplay {bytes rest : List Byte} {i : Instr} (h : decodeDisplay bytes = .ok (i, rest)) :
    i.HeadOf .display rest bytes := by
  match bytes, h with
  | c :: b :: a :: hd :: tail, h =>
    simp only [decodeDisplay] at h
    split at h
    · next hz =>
      have hhead := headOf_decodeHeader h
      rw [BitVec.ofNat_toNat, BitVec.setWidth_eq] at hhead
      rwa [eq_opOf_append hz]
    · cases h

/-- The bytes of an `ENCODE` request are those of the fields read from them (30_encoding.md R54). -/
theorem encodeInstr_encode_bytes (q0 q1 q2 q3 q4 q5 q6 q7 : Byte) :
    encodeInstr (.encode (q3 ++ q2 ++ q1 ++ q0) (q6.extractLsb' 0 4 ++ q5 ++ q4) (q6.extractLsb' 4 4) q7) =
      [q0, q1, q2, q3, q4, q5, q6, q7, 0x10#8] := by
  obtain ⟨h0, h1, h2, h3⟩ := split_bytes32 q3 q2 q1 q0
  obtain ⟨h4, h5, h6⟩ := split_bytes20 (q6.extractLsb' 0 4) q5 q4
  have hq6 := join_nibbles q6
  simp only [encodeInstr, List.cons.injEq, and_true]
  exact ⟨h0, h1, h2, h3, h4, h5, (congrArg (q6.extractLsb' 4 4 ++ ·) h6).trans hq6⟩

/-- The last byte of a request is its `fn` above zeros. -/
theorem eq_of_opOf_toNat {h : Byte} (hz : zOf h = 0#4) {n : Nat} (hn : (opOf h).toNat = n) :
    h = BitVec.ofNat 4 n ++ 0#4 := by
  rw [← hn, BitVec.ofNat_toNat, BitVec.setWidth_eq]
  exact eq_opOf_append hz

theorem headOf_decodeRequest {bytes rest : List Byte} {i : Instr} (h : decodeRequest bytes = .ok (i, rest)) :
    i.HeadOf .descriptor rest bytes := by
  match bytes, h with
  | q0 :: q1 :: q2 :: q3 :: q4 :: q5 :: q6 :: q7 :: hd :: tail, h =>
    simp only [decodeRequest] at h
    split at h
    · next hz =>
      split at h
      · next hfn =>
        split at h
        · next hq =>
          obtain ⟨rfl, rfl, rfl, rfl, rfl, rfl, rfl, rfl⟩ := hq
          cases h
          exact ⟨rfl, rfl, by rw [eq_of_opOf_toNat hz hfn]; rfl⟩
        · cases h
      · next hfn =>
        cases h
        refine ⟨rfl, rfl, ?_⟩
        rw [encodeInstr_encode_bytes, eq_of_opOf_toNat hz hfn]
        rfl
      · next hfn =>
        cases h
        exact ⟨rfl, rfl, by rw [eq_of_opOf_toNat hz hfn]; rfl⟩
      · cases h
    · cases h

/-- What a port accepts is one operation's own command and what follows it. -/
theorem headOf_decode {p : Port} {bytes rest : List Byte} {i : Instr} (h : decode p bytes = .ok (i, rest)) :
    i.HeadOf p rest bytes := by
  cases p with
  | display => exact headOf_decodeDisplay h
  | descriptor => exact headOf_decodeRequest h

/-- Settles O52: on the display port by the header's operation code, on the descriptor port by the function. -/
theorem decodedCommandIsItsEncoding : Obligations.DecodedCommandIsItsEncoding :=
  fun _ _ _ _ h => headOf_decode h

end Sys2Proof

namespace Sys2Proof.Machine

/-! ### What a step takes from the host (00_scope.md R8, 30_encoding.md R54) -/

/-- The bytes pending on a port. -/
def State.pendingOn (s : State) : Port → List Byte
  | .display => s.displayIn
  | .descriptor => s.requestIn

/-- The state with other turns to come and other bytes pending on a port. -/
def State.withPending (s : State) (p : Port) (turns : List Port) (bytes : List Byte) : State :=
  match p with
  | .display => { s with turns := turns, displayIn := bytes }
  | .descriptor => { s with turns := turns, requestIn := bytes }

theorem fetch_of_decode {s : State} {p : Port} {turns : List Port} {i : Instr} {rest : List Byte}
    (ht : s.turns = p :: turns) (hd : decode p (s.pendingOn p) = .ok (i, rest)) :
    fetch s = .ok (i, s.withPending p turns rest) := by
  cases p with
  | display =>
    have hd' : decodeDisplay s.displayIn = .ok (i, rest) := hd
    simp only [fetch, ht, hd', State.withPending]
  | descriptor =>
    have hd' : decodeRequest s.requestIn = .ok (i, rest) := hd
    simp only [fetch, ht, hd', State.withPending]

theorem fetch_of_decode_error {s : State} {p : Port} {turns : List Port} {e : DecodeError}
    (ht : s.turns = p :: turns) (hd : decode p (s.pendingOn p) = .error e) :
    fetch s = .error (.badEncoding e) := by
  cases p with
  | display =>
    have hd' : decodeDisplay s.displayIn = .error e := hd
    simp only [fetch, ht, hd']
  | descriptor =>
    have hd' : decodeRequest s.requestIn = .error e := hd
    simp only [fetch, ht, hd']

theorem fetch_of_no_turns {s : State} (ht : s.turns = []) : fetch s = .error .endOfRun := by
  simp only [fetch, ht]

/-- What is fetched is decoded from the port whose turn it is, and consumed there. -/
theorem fetch_ok {s u : State} {i : Instr} (h : fetch s = .ok (i, u)) :
    ∃ p turns rest, s.turns = p :: turns ∧ decode p (s.pendingOn p) = .ok (i, rest) ∧
      u = s.withPending p turns rest := by
  cases ht : s.turns with
  | nil => rw [fetch_of_no_turns ht] at h; cases h
  | cons p turns =>
    cases hd : decode p (s.pendingOn p) with
    | error e => rw [fetch_of_decode_error ht hd] at h; cases h
    | ok taken =>
      obtain ⟨j, rest⟩ := taken
      rw [fetch_of_decode ht hd] at h
      cases h
      exact ⟨p, turns, rest, rfl, hd, rfl⟩

/-- A step is `exec` of what it fetches, on what the fetch leaves. -/
theorem step_of_fetch_ok {s u : State} {i : Instr} (h : fetch s = .ok (i, u)) : step s = exec i u := by
  rw [step, h]

theorem step_of_fetch_error {s : State} {r : Refusal} (h : fetch s = .error r) : step s = .refused r := by
  rw [step, h]

/-- A step that is not refused fetched an operation and is `exec` of it. -/
theorem exists_fetch_of_step {s : State} (h : ∀ r, step s ≠ .refused r) :
    ∃ i u, fetch s = .ok (i, u) ∧ step s = exec i u := by
  cases hf : fetch s with
  | error r => exact absurd (step_of_fetch_error hf) (h r)
  | ok taken => exact ⟨taken.1, taken.2, rfl, step_of_fetch_ok hf⟩

/-- Settles O6: both ports fetch what their pending bytes decode to. -/
theorem stepRunsDecodedOperation : Obligations.StepRunsDecodedOperation :=
  fun _ _ _ _ => ⟨fun ht hd => step_of_fetch_ok (fetch_of_decode (p := .display) ht hd),
    fun ht hd => step_of_fetch_ok (fetch_of_decode (p := .descriptor) ht hd)⟩

/-- Settles O9: nothing is fetched from bytes that do not decode, and nothing without a turn. -/
theorem stepRefusesWhatIsNoOperation : Obligations.StepRefusesWhatIsNoOperation :=
  fun _ _ _ => ⟨fun ht => step_of_fetch_error (fetch_of_no_turns ht),
    fun ht hd => step_of_fetch_error (fetch_of_decode_error (p := .display) ht hd),
    fun ht hd => step_of_fetch_error (fetch_of_decode_error (p := .descriptor) ht hd)⟩

/-- Bytes that decode to an operation, whatever follows them, are run by the step after they are put on their port, and
nothing is left of them. -/
theorem step_withNext {s : State} {p : Port} {bytes : List Byte} {i : Instr}
    (h : ∀ more, decode p (bytes ++ more) = .ok (i, more)) : step (s.withNext p bytes) = exec i s := by
  cases p with
  | display => exact step_of_fetch_ok (fetch_of_decode (p := .display) rfl (h s.displayIn))
  | descriptor => exact step_of_fetch_ok (fetch_of_decode (p := .descriptor) rfl (h s.requestIn))

/-- Settles O7: a command decodes to its operation whatever is pending behind it. -/
theorem stepRunsEncodedOperation : Obligations.StepRunsEncodedOperation :=
  fun _ _ hi => step_withNext (decode_encodeInstr hi)

/-- A table word's port is its operation's. -/
theorem port_of_decodeTableWord {nbits w : Nat} {i : Instr} (h : decodeTableWord nbits w = some i) :
    i.port = tablePort nbits := by
  obtain ⟨-, hport, -⟩ := headOf_decode (decode_tableBytes h [])
  exact hport

theorem booted_of_initDone {s : State} (h : s.initDone = true) (p : Port) : s.booted p = s := by
  cases p with
  | display => rw [State.booted, ← h]
  | descriptor => rfl

/-- Settles O8: a table word decodes whole whatever follows it, and the boot changes nothing after `INIT`. -/
theorem stepRunsTableWord : Obligations.StepRunsTableWord := by
  intro s nbits w i h
  have hstep : step (s.withFetchWord nbits w) = exec i (s.booted i.port) := by
    rw [port_of_decodeTableWord h]
    exact step_withNext (decode_tableBytes h)
  exact ⟨hstep, fun hw => by rw [hstep, booted_of_initDone hw]⟩

/-- Settles O10: the fetch takes one turn and the command of what it fetches, and `exec` keeps the host's input. -/
theorem stepConsumesOneCommand : Obligations.StepConsumesOneCommand := by
  intro s t h
  obtain ⟨i, u, hf, hs⟩ := exists_fetch_of_step (s := s) (by simp [h])
  have hx : exec i u = .next t := hs.symm.trans h
  obtain ⟨p, turns, rest, hturns, hd, rfl⟩ := fetch_ok hf
  obtain ⟨hwell, hport, hbytes⟩ := headOf_decode hd
  obtain ⟨hcfg, hgdt, hlen, ht, hdisplay, hrequest⟩ := exec_frame hx
  rw [ht, hdisplay, hrequest, hcfg, hgdt, hlen]
  cases p with
  | display => exact ⟨rfl, rfl, rfl, i, hwell, by rw [hport]; exact hturns, hx, .inl ⟨hport, hbytes, rfl⟩⟩
  | descriptor => exact ⟨rfl, rfl, rfl, i, hwell, by rw [hport]; exact hturns, hx, .inr ⟨hport, hbytes, rfl⟩⟩

end Sys2Proof.Machine

namespace Sys2Proof.Machine

/-! ### The summary table of 10_state.md R26 -/

@[simp] theorem setPosition_cfg (x y : Nat) (s : State) : (setPosition x y s).cfg = s.cfg := by rw [setPosition_frame]
@[simp] theorem setPosition_x (x y : Nat) (s : State) : (setPosition x y s).x = s.x := by rw [setPosition_frame]
@[simp] theorem setPosition_y (x y : Nat) (s : State) : (setPosition x y s).y = s.y := by rw [setPosition_frame]
@[simp] theorem setPosition_attr (x y : Nat) (s : State) : (setPosition x y s).attr = s.attr := by
  rw [setPosition_frame]
@[simp] theorem setPosition_initDone (x y : Nat) (s : State) : (setPosition x y s).initDone = s.initDone := by
  rw [setPosition_frame]
@[simp] theorem setPosition_mem (x y : Nat) (s : State) : (setPosition x y s).mem = s.mem := by rw [setPosition_frame]

/-- `write_cell_at` writes display memory and the history, nothing else (40_display_cell_ops.md R73). -/
theorem writeCellAt_frame (row col : Nat) (byte : Byte) (s : State) :
    (writeCellAt row col byte s).2 =
      { s with mem := (writeCellAt row col byte s).2.mem, log := (writeCellAt row col byte s).2.log } := by
  unfold writeCellAt; split <;> rfl

theorem WritesOnly.attr_eq {s t : State} (h : WritesOnly s t) : t.attr = s.attr := by rw [h]

theorem WritesOnly.initDone_eq {s t : State} (h : WritesOnly s t) : t.initDone = s.initDone := by rw [h]

theorem MovesOnly.mem_eq {s t : State} (h : MovesOnly s t) : t.mem = s.mem := by rw [h]

/-- A `RETREAT` that completes is a retreat that lands. -/
theorem retreat_of_exec {s t : State} (h : exec .retreat s = .next t) :
    ∃ u, retreat s = .ok u ∧ complete .nothing u = .next t := by
  have hk := (afterInit_next h).2
  split at hk
  · cases hk
  · next u hu => exact ⟨u, hu, hk⟩

/-- A `DELCHAR` that completes is a retreat that lands, and then the blank (40_display_cell_ops.md R72). -/
theorem retreat_of_exec_delchar {s t : State} (h : exec .delchar s = .next t) :
    ∃ u, retreat s = .ok u ∧ complete .nothing (writeCellAt u.y.toNat u.x.toNat 0#8 u).2 = .next t := by
  have hk := (afterInit_next h).2
  split at hk
  · cases hk
  · next u hu => exact ⟨u, hu, hk⟩

/-- The columns of 10_state.md R26 for registers, cells and ports: what an operation does not name stays, and `INIT`
alone sets `initDone`. -/
def KeepsUnnamed (i : Instr) (s t : State) : Prop :=
  (writesPosition i = false → t.x = s.x ∧ t.y = s.y) ∧
  (writesAttr i = false → t.attr = s.attr) ∧
  (writesCells i = false → t.mem = s.mem) ∧
  (drivesPorts i = false → t.crtcIdx = s.crtcIdx ∧ t.crtcReg = s.crtcReg) ∧
  t.initDone = (s.initDone || decide (i = .init))

/-- An operation that names position, cells and ports keeps the rest by writing only those. -/
theorem WritesOnly.keepsUnnamed {i : Instr} {s t : State} (h : WritesOnly s t) (hx : writesPosition i = true)
    (hc : writesCells i = true) (hp : drivesPorts i = true) (hi : i ≠ .init) : KeepsUnnamed i s t :=
  ⟨by simp [hx], fun _ => h.attr_eq, by simp [hc], by simp [hp], by simp [h.initDone_eq, hi]⟩

/-- An operation that names position and ports keeps the rest by moving only. -/
theorem MovesOnly.keepsUnnamed {i : Instr} {s t : State} (h : MovesOnly s t) (hx : writesPosition i = true)
    (hp : drivesPorts i = true) (hi : i ≠ .init) : KeepsUnnamed i s t :=
  ⟨by simp [hx], fun _ => h.writesOnly.attr_eq, fun _ => h.mem_eq, by simp [hp],
    by simp [h.writesOnly.initDone_eq, hi]⟩

theorem KeepsUnnamed.refl {i : Instr} (hi : i ≠ .init) (s : State) : KeepsUnnamed i s s :=
  ⟨fun _ => ⟨rfl, rfl⟩, fun _ => rfl, fun _ => rfl, fun _ => ⟨rfl, rfl⟩, by simp [hi]⟩

/-- The result an operation returns is none of the things the table names. -/
theorem complete_keepsUnnamed {i : Instr} {r : Result} {s u t : State} (h : complete r u = .next t)
    (hu : KeepsUnnamed i s u) : KeepsUnnamed i s t := by
  cases h; exact hu

theorem exec_keepsUnnamed {i : Instr} {s t : State} (h : exec i s = .next t) : KeepsUnnamed i s t := by
  cases i with
  | init => exact complete_keepsUnnamed h ⟨nofun, nofun, fun _ => by simp, nofun, by simp⟩
  | wrchar byte =>
    exact complete_keepsUnnamed (afterInit_next h).2 ((writeChar_writesOnly byte s).keepsUnnamed rfl rfl rfl nofun)
  | delchar =>
    obtain ⟨u, hu, hk⟩ := retreat_of_exec_delchar h
    exact complete_keepsUnnamed hk
      (((retreat_movesOnly hu).writesOnly.trans (writeCellAt_writesOnly _ _ _ u)).keepsUnnamed rfl rfl rfl nofun)
  | wrcell row col byte =>
    refine complete_keepsUnnamed (afterInit_next h).2 ?_
    rw [writeCellAt_frame]
    exact ⟨fun _ => ⟨rfl, rfl⟩, fun _ => rfl, nofun, fun _ => ⟨rfl, rfl⟩, by simp⟩
  | wrbytes sequence =>
    exact complete_keepsUnnamed (afterInit_next h).2
      ((writeBytes_writesOnly sequence s).keepsUnnamed rfl rfl rfl nofun)
  | clear =>
    exact complete_keepsUnnamed (afterInit_next h).2
      ⟨fun _ => ⟨clearScreen_x s, clearScreen_y s⟩, fun _ => clearScreen_attr s, nofun,
        fun _ => ⟨clearScreen_crtcIdx s, clearScreen_crtcReg s⟩, by simp⟩
  | advance => exact complete_keepsUnnamed (afterInit_next h).2 ((advance_movesOnly s).keepsUnnamed rfl rfl nofun)
  | retreat =>
    obtain ⟨u, hu, hk⟩ := retreat_of_exec h
    exact complete_keepsUnnamed hk ((retreat_movesOnly hu).keepsUnnamed rfl rfl nofun)
  | newline =>
    exact complete_keepsUnnamed (afterInit_next h).2
      ((advanceUntilRowChanges_movesOnly s.y 128 s).keepsUnnamed rfl rfl nofun)
  | setfg color =>
    exact complete_keepsUnnamed (afterInit_next h).2
      ⟨fun _ => ⟨rfl, rfl⟩, nofun, fun _ => rfl, fun _ => ⟨rfl, rfl⟩, by simp⟩
  | setbg color =>
    exact complete_keepsUnnamed (afterInit_next h).2
      ⟨fun _ => ⟨rfl, rfl⟩, nofun, fun _ => rfl, fun _ => ⟨rfl, rfl⟩, by simp⟩
  | setpos x y =>
    exact complete_keepsUnnamed h
      ⟨fun _ => ⟨setPosition_x x y s, setPosition_y x y s⟩, fun _ => setPosition_attr x y s,
        fun _ => setPosition_mem x y s, nofun, by simp⟩
  | encode | tovalue | nulldesc => exact complete_keepsUnnamed h (.refl (by nofun) s)

theorem complete_result {r : Result} {u t : State} (h : complete r u = .next t) : t.result = r := by
  cases h; rfl

/-- What an operation returns is of its own kind (30_encoding.md R55). -/
theorem exec_result_fits {i : Instr} {s t : State} (h : exec i s = .next t) :
    Result.FitsOperation i t.result = true := by
  cases i with
  | init | setpos | encode | tovalue | nulldesc => rw [complete_result h]; rfl
  | delchar =>
    obtain ⟨u, -, hk⟩ := retreat_of_exec_delchar h
    rw [complete_result hk]; rfl
  | retreat =>
    obtain ⟨u, -, hk⟩ := retreat_of_exec h
    rw [complete_result hk]; rfl
  | wrchar | wrcell | wrbytes | clear | advance | newline | setfg | setbg =>
    rw [complete_result (afterInit_next h).2]; rfl

/-- Settles O24: the table's columns, the fields no operation writes, and the kind of the result, each by its lemma. -/
theorem operationsWriteOnlyWhatTheyName : Obligations.OperationsWriteOnlyWhatTheyName := by
  intro i s t h
  obtain ⟨hposition, hattr, hcells, hports, hinit⟩ := exec_keepsUnnamed h
  obtain ⟨hcfg, hgdt, hlen, hturns, hdisplay, hrequest⟩ := exec_frame h
  exact ⟨hposition, hattr, hcells, hports, hinit, hcfg, hgdt, hlen, hturns, hdisplay, hrequest, exec_result_fits h⟩

end Sys2Proof.Machine

namespace Sys2Proof.Machine

/-! ### Before and after `INIT` (60_exceptions.md R137) -/

theorem exec_refused_of_readsRegisters {i : Instr} {s : State} (hw : s.initDone = false)
    (hi : readsRegisters i = true) : exec i s = .refused .beforeInit := by
  cases i with
  | init | setpos | encode | tovalue | nulldesc => cases hi
  | wrchar | delchar | wrcell | wrbytes | clear | advance | retreat | newline | setfg | setbg =>
    exact afterInit_false hw _

/-- `set_position` neither reads nor writes a register (42_cursor_protocol.md R100). -/
theorem setPosition_withRegisters (c r : Nat) (s : State) (x : BitVec 7) (y : BitVec 5) (attr : Byte) :
    setPosition c r { s with x := x, y := y, attr := attr } =
      { setPosition c r s with x := x, y := y, attr := attr } := by
  unfold setPosition; split <;> rfl

/-- An operation that reads no register completes alike whatever the registers hold. -/
theorem exec_withRegisters {i : Instr} (s : State) (x : BitVec 7) (y : BitVec 5) (attr : Byte)
    (hi : readsRegisters i = false) :
    ∃ t, exec i s = .next t ∧
      exec i { s with x := x, y := y, attr := attr } =
        .next (if i = .init then t else { t with x := x, y := y, attr := attr }) := by
  cases i with
  | init => exact ⟨_, rfl, rfl⟩
  | setpos c r =>
    refine ⟨_, rfl, ?_⟩
    rw [if_neg nofun]
    exact congrArg (complete .nothing) (setPosition_withRegisters c r s x y attr)
  | encode | tovalue | nulldesc => exact ⟨_, rfl, by rw [if_neg (by nofun)]; rfl⟩
  | wrchar | delchar | wrcell | wrbytes | clear | advance | retreat | newline | setfg | setbg => cases hi

/-- Settles O53: each such operation is independent of the registers. -/
theorem registerFreeOperations : Obligations.RegisterFreeOperations :=
  fun _ s x y attr hi => exec_withRegisters s x y attr hi

/-- Settles O17: an operation that reads no register completes, and `INIT` alone sets `initDone`. -/
theorem refusedBeforeInit : Obligations.RefusedBeforeInit := by
  refine fun i s hw => ⟨exec_refused_of_readsRegisters hw, fun hi => ?_⟩
  obtain ⟨t, ht, -⟩ := exec_withRegisters s s.x s.y s.attr hi
  obtain ⟨-, -, -, -, hinit⟩ := exec_keepsUnnamed ht
  exact ⟨t, ht, by simp [hinit, hw]⟩

/-- Settles O54: an operation that reads the registers is refused whatever they hold, and any other ignores them. -/
theorem registerValuesBeforeInitNeverShow : Obligations.RegisterValuesBeforeInitNeverShow := by
  intro i s x y attr hw
  cases hi : readsRegisters i with
  | true =>
    rw [exec_refused_of_readsRegisters hw hi]
    exact exec_refused_of_readsRegisters hw hi
  | false =>
    obtain ⟨t, ht, hu⟩ := exec_withRegisters s x y attr hi
    rw [ht, hu]

/-! ### The invariant of every run -/

theorem wf_crtcReg_run {s : State} (hr : Mem.wf s.crtcReg) (a : Action) : Mem.wf (a.run s).crtcReg := by
  cases a with
  | push off => exact Mem.wf_write (Mem.wf_write hr _ _) _ _
  | moveTo | colour | begin | look | store => exact hr

/-- The devices' contents stay canonical and in their windows under every action on the screen. -/
theorem devicesWellFormed_run {a : Action} (ha : a.Legal) {s : State} (h : s.DevicesWellFormed) :
    (a.run s).DevicesWellFormed := by
  obtain ⟨hm, hmw, hr, hrw⟩ := h
  cases a with
  | store i v => exact ⟨wf_storeCell hm _ v, within_storeCell hmw ha v, hr, hrw⟩
  | push off =>
    have hlow : Mem.within (Mem.write s.crtcReg 0x0F (off.extractLsb' 0 8)) 0 256 :=
      Mem.within_write hrw _ (by decide)
    exact ⟨hm, hmw, wf_crtcReg_run hr (.push off), Mem.within_write hlow _ (a := 0x0E) (by decide)⟩
  | moveTo | colour | begin | look => exact ⟨hm, hmw, hr, hrw⟩

/-- The index latch is as a push leaves it and the hardware cursor is on the screen. -/
def State.CursorOnScreen (s : State) : Prop := s.crtcIdx = 0x0E#8 ∧ s.hwCursor.toNat < 2000

theorem cursorOnScreen_pushOffset {s : State} (hr : Mem.wf s.crtcReg) {off : BitVec 16} (h : off.toNat < 2000) :
    (pushOffset off s).CursorOnScreen :=
  ⟨rfl, by rwa [hwCursor_pushOffset hr]⟩

theorem wf_crtcReg_of_devicesWellFormed {s : State} (h : s.DevicesWellFormed) : Mem.wf s.crtcReg := h.2.2.1

theorem cursorOnScreen_run {a : Action} (ha : a.Legal) {s : State} (hr : Mem.wf s.crtcReg) (h : s.CursorOnScreen) :
    (a.run s).CursorOnScreen := by
  cases a with
  | push off => exact cursorOnScreen_pushOffset hr ha
  | moveTo | colour | begin | look | store => exact h

theorem exec_devicesWellFormed {i : Instr} {s t : State} (h : s.DevicesWellFormed) (hx : exec i s = .next t) :
    t.DevicesWellFormed := by
  obtain ⟨u, hd, ht⟩ := exec_does h.1 hx
  have hu : u.DevicesWellFormed := hd.keeps (P := State.DevicesWellFormed) (fun _ _ ha => devicesWellFormed_run ha) h
  rw [ht]
  exact hu

theorem exec_cursorOnScreen {i : Instr} {s t : State} (hdev : s.DevicesWellFormed) (h : s.CursorOnScreen)
    (hx : exec i s = .next t) : t.CursorOnScreen := by
  obtain ⟨u, hd, ht⟩ := exec_does hdev.1 hx
  have hu : u.DevicesWellFormed ∧ u.CursorOnScreen :=
    hd.keeps (P := fun v => v.DevicesWellFormed ∧ v.CursorOnScreen)
      (fun _ _ ha ⟨hv, hc⟩ =>
        ⟨devicesWellFormed_run ha hv, cursorOnScreen_run ha (wf_crtcReg_of_devicesWellFormed hv) hc⟩) ⟨hdev, h⟩
  rw [ht]
  exact hu.2

/-- `INIT` writes the three registers and pushes offset 0 (40_display_cell_ops.md R70). -/
theorem exec_init (s : State) :
    exec .init s =
      complete .nothing
        (pushOffset 0#16 { s with x := 0#7, y := 0#5, attr := s.cfg.defaultAttr, initDone := true }) := rfl

/-- Every operation keeps the invariant: the position by 10_state.md R16, the hardware cursor by the actions, from the
push of `INIT` on. -/
theorem exec_inv {i : Instr} {s t : State} (h : s.Inv) (hx : exec i s = .next t) : t.Inv := by
  obtain ⟨hcfg, hdev, ⟨hgdt, hlen⟩, hinit⟩ := h
  obtain ⟨ecfg, egdt, elen, -⟩ := exec_frame hx
  obtain ⟨-, -, -, -, edone⟩ := exec_keepsUnnamed hx
  refine ⟨ecfg ▸ hcfg, exec_devicesWellFormed hdev hx, ⟨egdt.trans hgdt, elen.trans hlen⟩, fun ht => ?_⟩
  have hposition : t.PositionInRange := exec_inRangeSinceInit (fun hw => (hinit hw).1) hx ht
  have hcursor : t.CursorOnScreen := by
    by_cases hi : i = .init
    · subst hi
      cases hx
      exact cursorOnScreen_pushOffset (wf_crtcReg_of_devicesWellFormed hdev) (by decide)
    · have hw : s.initDone = true := by simpa [edone, hi] using ht
      exact exec_cursorOnScreen hdev (hinit hw).2 hx
  exact ⟨hposition, hcursor⟩

theorem withPending_inv {s : State} (h : s.Inv) (p : Port) (turns : List Port) (bytes : List Byte) :
    (s.withPending p turns bytes).Inv := by
  cases p <;> exact h

/-- Settles O11: taking the host's next command touches nothing the invariant speaks of, and every operation keeps
it. -/
theorem stepKeepsInvariant : Obligations.StepKeepsInvariant := by
  intro s t h hstep
  obtain ⟨i, u, hf, hs⟩ := exists_fetch_of_step (s := s) (by simp [hstep])
  obtain ⟨p, turns, rest, -, -, rfl⟩ := fetch_ok hf
  exact exec_inv (withPending_inv h p turns rest) (hs.symm.trans hstep)

/-- Settles O12: at launch `INIT` has not completed, so the platform, the devices and the table are all there is. -/
theorem launchMeetsInvariant : Obligations.LaunchMeetsInvariant :=
  ⟨fun _ _ _ _ _ _ _ hcfg hm hmw hr hrw => ⟨hcfg, ⟨hm, hmw, hr, hrw⟩, ⟨rfl, rfl⟩, nofun⟩, by decide⟩

/-- Settles O13: the launch state holds what it is given, and the table is a constant. -/
theorem launchLeavesRegistersUnwritten : Obligations.LaunchLeavesRegistersUnwritten := by
  rintro cfg x y attr mem crtcIdx crtcReg s rfl
  have htable : staticTable.map recordValue =
      [0x0000000000000000#64, 0x00CF9A000000FFFF#64, 0x00CF92000000FFFF#64] := by decide
  exact ⟨rfl, rfl, rfl, rfl, rfl, htable, rfl, rfl, rfl, fun _ => rfl, rfl, fun _ => rfl, rfl⟩

/-! ### Every operation completes (40_display_cell_ops.md R78, R80) -/

/-- After `INIT` every operation completes: only a retreat could stop, and in range it lands. -/
theorem exec_completes {s : State} (hw : s.initDone = true) (hr : s.PositionInRange) (i : Instr) :
    ∃ t, exec i s = .next t := by
  obtain ⟨u, hu, -⟩ := retreat_spec hr
  cases i with
  | init | setpos | encode | tovalue | nulldesc => exact ⟨_, rfl⟩
  | delchar => exact ⟨_, exec_delchar_of_ok hw hu⟩
  | retreat => exact ⟨_, exec_retreat_of_ok hw hu⟩
  | wrchar | wrcell | wrbytes | clear | advance | newline | setfg | setbg => exact ⟨_, afterInit_true hw _⟩

/-- Settles O15: the operation completes, and what it completes in meets the invariant. -/
theorem everyOperationCompletes : Obligations.EveryOperationCompletes := by
  intro i s h hw
  have ⟨_, _, _, hinit⟩ := h
  obtain ⟨t, ht⟩ := exec_completes hw (hinit hw).1 i
  obtain ⟨-, -, -, -, hdone⟩ := exec_keepsUnnamed ht
  exact ⟨t, ht, exec_inv h ht, by rw [hdone, hw, Bool.true_or], exec_result_fits ht⟩

theorem exec_ne_fault {s : State} (h : s.Inv) (i : Instr) (f : Fault) : exec i s ≠ .fault f := by
  intro hf
  cases hw : s.initDone with
  | true =>
    obtain ⟨t, ht, -⟩ := everyOperationCompletes i s h hw
    exact absurd (hf.symm.trans ht) nofun
  | false =>
    obtain ⟨hrefused, hcompletes⟩ := refusedBeforeInit i s hw
    cases hi : readsRegisters i with
    | true => exact absurd (hf.symm.trans (hrefused hi)) nofun
    | false =>
      obtain ⟨t, ht, -⟩ := hcompletes hi
      exact absurd (hf.symm.trans ht) nofun

/-- Settles O16: before `INIT` an operation completes or is refused, and after it every operation completes. -/
theorem stepNeverFaults : Obligations.StepNeverFaults := by
  intro s f h hstep
  obtain ⟨i, u, hf, hs⟩ := exists_fetch_of_step (s := s) (by simp [hstep])
  obtain ⟨p, turns, rest, -, -, rfl⟩ := fetch_ok hf
  exact exec_ne_fault (withPending_inv h p turns rest) i f (hs.symm.trans hstep)

end Sys2Proof.Machine

namespace Sys2Proof.Machine

/-! ### The hardware cursor (10_state.md R19) -/

theorem Does.wf_crtcReg {s t : State} (h : Does s t) (hr : Mem.wf s.crtcReg) : Mem.wf t.crtcReg :=
  h.keeps (P := fun u => Mem.wf u.crtcReg) (fun a _ _ hu => wf_crtcReg_run hu a) hr

/-- The cursor after a push of a cell of the screen. -/
theorem hwCursor_pushOffset_toNat {s : State} (hr : Mem.wf s.crtcReg) {x y : Nat} (hx : x < 80) (hy : y < 25) :
    (pushOffset (linearOffset x y) s).hwCursor.toNat = y * 80 + x := by
  rw [hwCursor_pushOffset hr, linearOffset_toNat]
  omega

/-- Where the registers are those of a push of the position, the hardware cursor is in sync. -/
theorem inSync_of_crtcReg_eq {s t : State} (hr : Mem.wf s.crtcReg) (ht : t.PositionInRange)
    (h : t.crtcReg = (pushOffset (BitVec.ofNat 16 t.offset) s).crtcReg) : t.InSync := by
  have hlt := offset_lt ht
  rw [State.InSync, hwCursor_congr h, hwCursor_pushOffset hr, BitVec.toNat_ofNat]
  omega

theorem advance_inSync {s : State} (h : s.PositionInRange) (hr : Mem.wf s.crtcReg) : (advance s).InSync := by
  obtain ⟨hin, hoff, -, hreg, -⟩ := advance_spec h
  exact inSync_of_crtcReg_eq hr hin (by rw [hreg, hoff])

/-- A run of advances leaves the cursor in sync if it was, or if there is an advance in it. -/
theorem advances_inSync (n : Nat) {s : State} (h : s.PositionInRange) (hr : Mem.wf s.crtcReg)
    (hs : s.InSync ∨ n ≠ 0) : (advances n s).InSync := by
  induction n generalizing s with
  | zero => exact hs.resolve_right (absurd rfl)
  | succ n ih => exact ih (advance_spec h).1 ((does_advance s).wf_crtcReg hr) (.inl (advance_inSync h hr))

theorem newLine_inSync {s : State} (h : s.PositionInRange) (hr : Mem.wf s.crtcReg) : (newLine s).InSync := by
  rw [newLine_eq h]
  exact advances_inSync _ h hr (.inr (Nat.sub_ne_zero_of_lt h.1))

theorem writeCellAt_crtcReg (row col : Nat) (byte : Byte) (s : State) :
    (writeCellAt row col byte s).2.crtcReg = s.crtcReg := by rw [writeCellAt_frame]

theorem writeCellAt_offset (row col : Nat) (byte : Byte) (s : State) :
    (writeCellAt row col byte s).2.offset = s.offset := by rw [writeCellAt_frame]; rfl

theorem writeCellAt_inSync (row col : Nat) (byte : Byte) {s : State} (h : s.InSync) :
    (writeCellAt row col byte s).2.InSync := by
  rw [State.InSync, hwCursor_congr (writeCellAt_crtcReg row col byte s), writeCellAt_offset]
  exact h

theorem writeChar_inSync (byte : Byte) {s : State} (h : s.PositionInRange) (hr : Mem.wf s.crtcReg) :
    (writeChar byte s).InSync :=
  advance_inSync (writeCellAt_inRange _ _ byte h) ((does_writeCellAt _ _ byte s).wf_crtcReg hr)

/-- A sequence that begins with a zero byte, or is empty, does nothing (40_display_cell_ops.md R74). -/
theorem writeBytes_of_takeWhile_nil {l : List Byte} (h : l.takeWhile (· != 0#8) = []) (s : State) :
    writeBytes l s = s := by
  cases l with
  | nil => rfl
  | cons b bs => exact if_pos (by simpa [List.takeWhile_cons] using h)

/-- A sequence leaves the cursor in sync if it was, or if there is a character in it. -/
theorem writeBytes_inSync (l : List Byte) {s : State} (h : s.PositionInRange) (hr : Mem.wf s.crtcReg)
    (hs : s.InSync ∨ l.takeWhile (· != 0#8) ≠ []) : (writeBytes l s).InSync := by
  induction l generalizing s with
  | nil => exact hs.resolve_right (absurd rfl)
  | cons b bs ih =>
    by_cases hb : b = 0#8
    · have hnil : (b :: bs).takeWhile (· != 0#8) = [] := by simp [hb]
      rw [writeBytes_of_takeWhile_nil hnil]
      exact hs.resolve_right (absurd hnil)
    · rw [writeBytes, if_neg hb]
      exact ih (writeChar_inRange b h) ((does_writeChar b s).wf_crtcReg hr) (.inl (writeChar_inSync b h hr))

/-- A retreat leaves the cursor in sync if it was, or if the position was off the origin. -/
theorem retreat_inSync {s t : State} (h : s.PositionInRange) (hr : Mem.wf s.crtcReg) (ht : retreat s = .ok t)
    (hs : s.InSync ∨ ¬(s.x.toNat = 0 ∧ s.y.toNat = 0)) : t.InSync := by
  obtain ⟨u, hu, hin, -, -, -, horigin | ⟨-, hreg⟩⟩ := retreat_spec h
  · cases ht.symm.trans hu
    obtain ⟨hx, hy, rfl⟩ := horigin
    exact hs.resolve_right (absurd ⟨hx, hy⟩)
  · cases ht.symm.trans hu
    exact inSync_of_crtcReg_eq hr hin hreg

theorem complete_inSync {r : Result} {u t : State} (h : complete r u = .next t) (hu : u.InSync) : t.InSync := by
  cases h; exact hu

/-- `INIT` pushes the origin and puts the position there. -/
theorem inSync_of_exec_init {s t : State} (hr : Mem.wf s.crtcReg) (h : exec .init s = .next t) : t.InSync := by
  rw [exec_init] at h
  exact complete_inSync h (congrArg BitVec.toNat (hwCursor_pushOffset hr 0#16))

/-- `SETPOS` leaves the cursor in sync off the screen, where it does nothing, and at the position. -/
theorem setPosition_inSync {x y : Nat} {s : State} (h : s.PositionInRange) (hr : Mem.wf s.crtcReg) (hs : s.InSync)
    (hxy : (25 ≤ y ∨ 80 ≤ x) ∨ (x = s.x.toNat ∧ y = s.y.toNat)) : (setPosition x y s).InSync := by
  rcases hxy with hout | ⟨rfl, rfl⟩
  · rwa [setPosition_outOfBounds hout]
  · rw [setPosition_inBounds h.1 h.2, State.InSync, hwCursor_pushOffset_toNat hr h.1 h.2]
    rfl

/-- In sync and in range, every operation leaves the cursor in sync, but for a `SETPOS` elsewhere on the screen. -/
theorem exec_inSync {i : Instr} {s t : State} (hr : Mem.wf s.crtcReg) (hx : exec i s = .next t)
    (h : s.PositionInRange) (hs : s.InSync)
    (hset : ∀ x y, i = .setpos x y → (25 ≤ y ∨ 80 ≤ x) ∨ (x = s.x.toNat ∧ y = s.y.toNat)) : t.InSync := by
  cases i with
  | init => exact inSync_of_exec_init hr hx
  | wrchar byte => exact complete_inSync (afterInit_next hx).2 (writeChar_inSync byte h hr)
  | delchar =>
    obtain ⟨u, hu, hk⟩ := retreat_of_exec_delchar hx
    exact complete_inSync hk (writeCellAt_inSync _ _ _ (retreat_inSync h hr hu (.inl hs)))
  | wrcell row col byte => exact complete_inSync (afterInit_next hx).2 (writeCellAt_inSync row col byte hs)
  | wrbytes sequence => exact complete_inSync (afterInit_next hx).2 (writeBytes_inSync sequence h hr (.inl hs))
  | clear =>
    refine complete_inSync (afterInit_next hx).2 ?_
    rw [State.InSync, hwCursor_congr (clearScreen_crtcReg s), State.offset, clearScreen_x, clearScreen_y]
    exact hs
  | advance => exact complete_inSync (afterInit_next hx).2 (advance_inSync h hr)
  | retreat =>
    obtain ⟨u, hu, hk⟩ := retreat_of_exec hx
    exact complete_inSync hk (retreat_inSync h hr hu (.inl hs))
  | newline => exact complete_inSync (afterInit_next hx).2 (newLine_inSync h hr)
  | setfg | setbg => exact complete_inSync (afterInit_next hx).2 hs
  | setpos x y => exact complete_inSync hx (setPosition_inSync h hr hs (hset x y rfl))
  | encode | tovalue | nulldesc => exact complete_inSync hx hs

/-- Settles O18: `INIT` brings the cursor in sync, and every operation keeps it there. -/
theorem operationKeepsCursorInSync : Obligations.OperationKeepsCursorInSync := by
  intro i s t hr hx
  exact ⟨fun hi => inSync_of_exec_init hr (hi ▸ hx), exec_inSync hr hx⟩

/-- At the origin `retreat` does nothing (41_display_position.md R91). -/
theorem retreat_origin {s : State} (h : s.x.toNat = 0 ∧ s.y.toNat = 0) : retreat s = .ok s :=
  if_pos ⟨BitVec.eq_of_toNat_eq h.1, BitVec.eq_of_toNat_eq h.2⟩

theorem exec_wrbytes {s : State} (hw : s.initDone = true) (sequence : List Byte) :
    exec (.wrbytes sequence) s = complete .nothing (writeBytes sequence s) := afterInit_true hw _

theorem exec_newline {s : State} (hw : s.initDone = true) : exec .newline s = complete .nothing (newLine s) :=
  afterInit_true hw _

theorem exists_next_inSync {i : Instr} {r : Result} {s u : State} (hx : exec i s = complete r u) (hu : u.InSync) :
    ∃ t, exec i s = .next t ∧ t.InSync := ⟨_, hx, hu⟩

theorem exists_next_cursor_kept {i : Instr} {r : Result} {s u : State} (hx : exec i s = complete r u)
    (hreg : u.crtcReg = s.crtcReg) (hoff : u.offset = s.offset) :
    ∃ t, exec i s = .next t ∧ t.hwCursor = s.hwCursor ∧ t.offset = s.offset :=
  ⟨_, hx, hwCursor_congr hreg, hoff⟩

/-- Settles O51: what pushes ends in sync from any position in range; what pushes nothing leaves the controller. -/
theorem nextPushResynchronises : Obligations.NextPushResynchronises := by
  intro s hw h hr
  refine ⟨exists_next_inSync (exec_advance hw) (advance_inSync h hr),
    fun byte => exists_next_inSync (exec_wrchar hw byte) (writeChar_inSync byte h hr),
    exists_next_inSync (exec_newline hw) (newLine_inSync h hr),
    fun sequence => ⟨fun hne => ?_, fun hnil => ?_⟩, fun hoff => ?_, fun horigin => ?_⟩
  · exact exists_next_inSync (exec_wrbytes hw sequence) (writeBytes_inSync sequence h hr (.inr hne))
  · have hsame := writeBytes_of_takeWhile_nil hnil s
    exact exists_next_cursor_kept (exec_wrbytes hw sequence) (by rw [hsame]) (by rw [hsame])
  · obtain ⟨u, hu, -⟩ := retreat_spec h
    have hsync := retreat_inSync h hr hu (.inr hoff)
    exact ⟨exists_next_inSync (exec_retreat_of_ok hw hu) hsync,
      exists_next_inSync (exec_delchar_of_ok hw hu) (writeCellAt_inSync _ _ _ hsync)⟩
  · have hu := retreat_origin horigin
    exact ⟨exists_next_cursor_kept (exec_retreat_of_ok hw hu) rfl rfl,
      exists_next_cursor_kept (exec_delchar_of_ok hw hu) (writeCellAt_crtcReg _ _ _ s) (writeCellAt_offset _ _ _ s)⟩

end Sys2Proof.Machine

namespace Sys2Proof.Machine

/-! ### The events of an operation are whole blocks (42_cursor_protocol.md R101) -/

/-- The blocks an action shows: one access, one push, or none. -/
def Action.blocks : Action → List Block
  | .moveTo _ _ => []
  | .colour _ => []
  | .begin => []
  | .store i v => [.write i v]
  | .look i => [.read i]
  | .push off => [.push off]

theorem Action.events_eq_blocks (cfg : Config) (a : Action) :
    a.events cfg = a.blocks.flatMap (Block.events cfg) := by
  cases a with
  | push off => exact (List.append_nil _).symm
  | moveTo | colour | begin | store | look => rfl

/-- The blocks of a legal action are on the screen. -/
theorem Action.Legal.onScreen {a : Action} (ha : a.Legal) : ∀ b ∈ a.blocks, b.OnScreen := by
  cases a with
  | moveTo | colour | begin => exact nofun
  | store | look | push => exact List.forall_mem_singleton.2 ha

/-- Settles O21: an operation goes by legal actions, and each shows whole blocks on the screen. -/
theorem portSequenceIsFixed : Obligations.PortSequenceIsFixed := by
  intro i s t hm h
  obtain ⟨u, ⟨as, hlegal, rfl⟩, ht⟩ := exec_does hm h
  refine ⟨as.flatMap Action.blocks, fun b hb => ?_, ?_⟩
  · obtain ⟨a, ha, hba⟩ := List.mem_flatMap.1 hb
    exact (hlegal a ha).onScreen b hba
  · rw [ht, List.flatMap_assoc, ← funext (Action.events_eq_blocks s.cfg)]
    exact (events_runActions as s).2

/-! ### Two runs of an operation

An operation decides what to do by the platform, the registers, `initDone` and the display memory alone. So a relation
between two states that agree there, and that every action keeps, is kept by every operation: each fact that an
operation does not depend on something is one such relation. -/

/-- The states agree in all that an operation decides by. -/
def SameView (s u : State) : Prop :=
  u.cfg = s.cfg ∧ u.x = s.x ∧ u.y = s.y ∧ u.attr = s.attr ∧ u.initDone = s.initDone ∧ u.mem = s.mem

/-- A relation between states that agree in all an operation decides by, kept by every action, by `CLEAR` and by the
result of an operation. -/
structure Simulation (R : State → State → Prop) : Prop where
  view : ∀ {s u}, R s u → SameView s u
  run : ∀ {s u} (a : Action), R s u → R (a.run s) (a.run u)
  clear : ∀ {s u}, R s u → R (clearScreen s) (clearScreen u)
  result : ∀ {s u} (r : Result), R s u → R { s with result := r } { u with result := r }

/-- Both outcomes go on, in related states, or both stop for the same reason. -/
inductive RelatedOutcomes (R : State → State → Prop) :
    Host.Outcome State Fault Refusal → Host.Outcome State Fault Refusal → Prop
  | next {s u : State} (h : R s u) : RelatedOutcomes R (.next s) (.next u)
  | fault (f : Fault) : RelatedOutcomes R (.fault f) (.fault f)
  | refused (r : Refusal) : RelatedOutcomes R (.refused r) (.refused r)

namespace Simulation

variable {R : State → State → Prop} {s u : State}

theorem setPosition (hR : Simulation R) (x y : Nat) (h : R s u) :
    R (Machine.setPosition x y s) (Machine.setPosition x y u) := by
  unfold Machine.setPosition
  split
  · exact h
  · exact hR.run (.push _) h

theorem writeCellAt (hR : Simulation R) (row col : Nat) (byte : Byte) (h : R s u) :
    (Machine.writeCellAt row col byte u).1 = (Machine.writeCellAt row col byte s).1 ∧
      R (Machine.writeCellAt row col byte s).2 (Machine.writeCellAt row col byte u).2 := by
  obtain ⟨-, -, -, hattr, -, -⟩ := hR.view h
  unfold Machine.writeCellAt
  rw [hattr]
  split
  · exact ⟨rfl, h⟩
  · exact ⟨rfl, hR.run (.store _ _) h⟩

theorem advance (hR : Simulation R) (h : R s u) : R (Machine.advance s) (Machine.advance u) := by
  obtain ⟨-, hx, hy, -⟩ := hR.view h
  unfold Machine.advance
  rw [hx, hy]
  exact hR.setPosition _ _ (hR.run (.moveTo _ _) h)

theorem scanRow (hR : Simulation R) (r n : Nat) (h : R s u) :
    (Machine.scanRow r n u).1 = (Machine.scanRow r n s).1 ∧
      R (Machine.scanRow r n s).2 (Machine.scanRow r n u).2 := by
  induction n generalizing s u with
  | zero => exact ⟨rfl, h⟩
  | succ c ih =>
    obtain ⟨hcfg, -, -, -, -, hm⟩ := hR.view h
    have hlook := hR.run (.look (cellIndex r c)) h
    simp only [Machine.scanRow, cell_congr hcfg hm]
    split
    · exact ih hlook
    · exact ⟨rfl, hlook⟩

theorem writeChar (hR : Simulation R) (byte : Byte) (h : R s u) :
    R (Machine.writeChar byte s) (Machine.writeChar byte u) := by
  obtain ⟨-, hx, hy, -⟩ := hR.view h
  unfold Machine.writeChar
  rw [hx, hy]
  exact hR.advance (hR.writeCellAt _ _ byte h).2

theorem writeBytes (hR : Simulation R) (l : List Byte) (h : R s u) :
    R (Machine.writeBytes l s) (Machine.writeBytes l u) := by
  induction l generalizing s u with
  | nil => exact h
  | cons b bs ih =>
    simp only [Machine.writeBytes]
    split
    · exact h
    · exact ih (hR.writeChar b h)

theorem advanceUntilRowChanges (hR : Simulation R) (y0 : BitVec 5) (n : Nat) (h : R s u) :
    R (Machine.advanceUntilRowChanges y0 n s) (Machine.advanceUntilRowChanges y0 n u) := by
  induction n generalizing s u with
  | zero => exact h
  | succ n ih =>
    have hadvance := hR.advance h
    obtain ⟨-, -, hy, -⟩ := hR.view hadvance
    simp only [Machine.advanceUntilRowChanges]
    rw [hy]
    split
    · exact ih hadvance
    · exact hadvance

theorem newLine (hR : Simulation R) (h : R s u) : R (Machine.newLine s) (Machine.newLine u) := by
  obtain ⟨-, -, hy, -⟩ := hR.view h
  unfold Machine.newLine
  rw [hy]
  exact hR.advanceUntilRowChanges _ _ h

/-- Two retreats land in related states, or both read beyond the display memory. -/
theorem retreat (hR : Simulation R) (h : R s u) :
    (∃ t v, Machine.retreat s = .ok t ∧ Machine.retreat u = .ok v ∧ R t v) ∨
      ∃ f, Machine.retreat s = .error f ∧ Machine.retreat u = .error f := by
  obtain ⟨-, hx, hy, -⟩ := hR.view h
  unfold Machine.retreat lastNonblankColumn
  rw [hx, hy]
  split
  · exact .inl ⟨_, _, rfl, rfl, h⟩
  · split
    · by_cases hrow : (s.y - 1#5).toNat < 25
      · obtain ⟨hcolumn, hscan⟩ := hR.scanRow (s.y - 1#5).toNat 80 h
        rw [if_pos hrow, if_pos hrow]
        generalize Machine.scanRow (s.y - 1#5).toNat 80 s = p at hcolumn hscan ⊢
        generalize Machine.scanRow (s.y - 1#5).toNat 80 u = q at hcolumn hscan ⊢
        obtain ⟨c, t⟩ := p
        obtain ⟨d, v⟩ := q
        obtain rfl : d = c := hcolumn
        exact .inl ⟨_, _, rfl, rfl, hR.setPosition _ _ (hR.run (.moveTo _ _) hscan)⟩
      · rw [if_neg hrow, if_neg hrow]
        exact .inr ⟨_, rfl, rfl⟩
    · exact .inl ⟨_, _, rfl, rfl, hR.setPosition _ _ (hR.run (.moveTo _ _) h)⟩

theorem complete (hR : Simulation R) (r : Result) (h : R s u) :
    RelatedOutcomes R (Machine.complete r s) (Machine.complete r u) := .next (hR.result r h)

theorem afterInit (hR : Simulation R) (h : R s u) {k l : Host.Outcome State Fault Refusal}
    (hk : RelatedOutcomes R k l) : RelatedOutcomes R (Machine.afterInit s k) (Machine.afterInit u l) := by
  obtain ⟨-, -, -, -, hw, -⟩ := hR.view h
  unfold Machine.afterInit
  rw [hw]
  split
  · exact hk
  · exact .refused _

/-- From related states an operation ends in related states, or stops for the same reason. -/
theorem exec (hR : Simulation R) (i : Instr) (h : R s u) : RelatedOutcomes R (Machine.exec i s) (Machine.exec i u) := by
  cases i with
  | init =>
    obtain ⟨hcfg, -⟩ := hR.view h
    have hbegun := hR.run .begin (hR.run (.colour s.cfg.defaultAttr) (hR.run (.moveTo 0#7 0#5) h))
    have hattr : u.cfg.defaultAttr = s.cfg.defaultAttr := congrArg Config.defaultAttr hcfg
    rw [exec_init, exec_init, hattr]
    exact hR.complete _ (hR.run (.push 0#16) hbegun)
  | wrchar byte => exact hR.afterInit h (hR.complete _ (hR.writeChar byte h))
  | delchar =>
    refine hR.afterInit h ?_
    rcases hR.retreat h with ⟨t, v, ht, hv, hland⟩ | ⟨f, ht, hv⟩
    · obtain ⟨-, hx, hy, -⟩ := hR.view hland
      rw [ht, hv]
      show RelatedOutcomes R (Machine.complete _ _)
        (Machine.complete _ (Machine.writeCellAt v.y.toNat v.x.toNat 0#8 v).2)
      rw [hx, hy]
      exact hR.complete _ (hR.writeCellAt _ _ _ hland).2
    · rw [ht, hv]
      exact .fault f
  | wrcell row col byte =>
    obtain ⟨hoob, hcell⟩ := hR.writeCellAt row col byte h
    refine hR.afterInit h ?_
    rw [hoob]
    exact hR.complete _ hcell
  | wrbytes sequence => exact hR.afterInit h (hR.complete _ (hR.writeBytes sequence h))
  | clear => exact hR.afterInit h (hR.complete _ (hR.clear h))
  | advance => exact hR.afterInit h (hR.complete _ (hR.advance h))
  | retreat =>
    refine hR.afterInit h ?_
    rcases hR.retreat h with ⟨t, v, ht, hv, hland⟩ | ⟨f, ht, hv⟩
    · rw [ht, hv]
      exact hR.complete _ hland
    · rw [ht, hv]
      exact .fault f
  | newline => exact hR.afterInit h (hR.complete _ (hR.newLine h))
  | setfg color =>
    obtain ⟨-, -, -, hattr, -⟩ := hR.view h
    refine hR.afterInit h (hR.complete _ ?_)
    rw [hattr]
    exact hR.run (.colour _) h
  | setbg color =>
    obtain ⟨-, -, -, hattr, -⟩ := hR.view h
    refine hR.afterInit h (hR.complete _ ?_)
    rw [hattr]
    exact hR.run (.colour _) h
  | setpos x y => exact hR.complete _ (hR.setPosition x y h)
  | encode | tovalue | nulldesc => exact hR.complete _ h

end Simulation

/-! ### Nothing depends on the history, the controller or the last result -/

/-- `u` is `s` with an older history behind its own. -/
def OlderHistory (old : List Event) (s u : State) : Prop := u = { s with log := s.log ++ old }

/-- The history of `CLEAR` is put before what was there. -/
theorem foldl_cellWrite_append (v : CellWord) (cells : List (Nat × Nat)) (log old : List Event) :
    cells.foldl (fun l rc => .cellWrite (cellIndex rc.1 rc.2) v :: l) (log ++ old) =
      cells.foldl (fun l rc => .cellWrite (cellIndex rc.1 rc.2) v :: l) log ++ old := by
  induction cells generalizing log with
  | nil => rfl
  | cons rc cells ih => exact ih (.cellWrite (cellIndex rc.1 rc.2) v :: log)

theorem olderHistory_simulation (old : List Event) : Simulation (OlderHistory old) where
  view := by rintro s u rfl; exact ⟨rfl, rfl, rfl, rfl, rfl, rfl⟩
  run := by
    rintro s u a rfl
    cases a <;> exact rfl
  clear := by
    rintro s u rfl
    simp only [OlderHistory, clearScreen, foldl_cellWrite_append]
  result := by rintro s u r rfl; exact rfl

/-- Settles O22: an older history is a relation that every action keeps. -/
theorem historyIsBookkeeping : Obligations.HistoryIsBookkeeping := by
  intro i s old
  have h := (olderHistory_simulation old).exec i (s := s) rfl
  generalize exec i s = o at h ⊢
  generalize exec i { s with log := s.log ++ old } = p at h ⊢
  cases h with
  | next h => exact congrArg Host.Outcome.next h
  | fault f => rfl
  | refused r => rfl

/-- `u` is `s` but for what the CRT controller holds. -/
def OtherController (s u : State) : Prop := u = { s with crtcIdx := u.crtcIdx, crtcReg := u.crtcReg }

theorem otherController_simulation : Simulation OtherController where
  view := by intro s u h; rw [h]; exact ⟨rfl, rfl, rfl, rfl, rfl, rfl⟩
  run := by
    intro s u a h
    rw [h]
    cases a <;> exact rfl
  clear := by intro s u h; rw [h]; simp only [OtherController, clearScreen]
  result := by intro s u r h; rw [h]; exact rfl

/-- Settles O23: another content of the controller is a relation that every action keeps. -/
theorem pushIgnoresTheDevice : Obligations.PushIgnoresTheDevice := by
  intro i s crtcIdx crtcReg
  have h := otherController_simulation.exec i
    (rfl : OtherController s { s with crtcIdx := crtcIdx, crtcReg := crtcReg })
  generalize exec i s = o at h ⊢
  generalize exec i { s with crtcIdx := crtcIdx, crtcReg := crtcReg } = p at h ⊢
  cases h with
  | next h => exact ⟨_, rfl, h⟩
  | fault f => rfl
  | refused r => rfl

/-- `u` is `s` but for what the last operation returned. -/
def OtherResult (s u : State) : Prop := u = { s with result := u.result }

theorem otherResult_simulation : Simulation OtherResult where
  view := by intro s u h; rw [h]; exact ⟨rfl, rfl, rfl, rfl, rfl, rfl⟩
  run := by
    intro s u a h
    rw [h]
    cases a <;> exact rfl
  clear := by intro s u h; rw [h]; simp only [OtherResult, clearScreen]
  result := by intro s u r h; rw [h]; exact rfl

/-! ### Splitting a `WRBYTES` (30_encoding.md R53) -/

theorem writeBytes_append {first : List Byte} (h : 0#8 ∉ first) (second : List Byte) (s : State) :
    writeBytes (first ++ second) s = writeBytes second (writeBytes first s) := by
  induction first generalizing s with
  | nil => rfl
  | cons b bs ih =>
    obtain ⟨hb, hbs⟩ := List.ne_and_not_mem_of_not_mem_cons h
    rw [List.cons_append, writeBytes, writeBytes, if_neg hb.symm, if_neg hb.symm, ih hbs]

/-- Settles O32: the second part goes on where the first stopped, whatever the first returned. -/
theorem wrbytesSplit : Obligations.WrbytesSplit := by
  intro first second s hfirst
  cases hw : s.initDone with
  | false =>
    rw [exec_refused_of_readsRegisters hw rfl, exec_refused_of_readsRegisters hw rfl]
  | true =>
    have hw' : (writeBytes first s).initDone = true := (writeBytes_writesOnly first s).initDone_eq.trans hw
    have hsame := otherResult_simulation.writeBytes second
      (rfl : OtherResult (writeBytes first s) { writeBytes first s with result := .nothing })
    rw [exec_wrbytes hw, exec_wrbytes hw, writeBytes_append hfirst]
    show _ = exec (.wrbytes second) { writeBytes first s with result := .nothing }
    rw [exec_wrbytes (by exact hw'), complete, complete, hsame]

end Sys2Proof.Machine

namespace Sys2Proof.Machine

/-! ### What a push leaves alone, and `SETPOS` (42_cursor_protocol.md R100) -/

theorem events_pushOffset (off : BitVec 16) (s : State) :
    (pushOffset off s).events = s.events ++ pushEvents s.cfg off := events_run (.push off) s

/-- A push writes only the two cursor-location registers. -/
theorem read_pushOffset_other (off : BitVec 16) (s : State) {r : Nat} (hhigh : r ≠ 0x0E) (hlow : r ≠ 0x0F) :
    Mem.read (pushOffset off s).crtcReg r = Mem.read s.crtcReg r := by
  rw [pushOffset_crtcReg, Mem.read_write_other _ _ hhigh, Mem.read_write_other _ _ hlow]

/-- Settles O27: `INIT` writes its registers and pushes offset 0. -/
theorem initResult : Obligations.InitResult := fun s hr =>
  ⟨_, exec_init s, rfl, events_pushOffset 0#16 _, hwCursor_pushOffset hr 0#16,
    fun _ hhigh hlow => read_pushOffset_other 0#16 s hhigh hlow⟩

theorem exec_setpos (x y : Nat) (s : State) : exec (.setpos x y) s = complete .nothing (setPosition x y s) := rfl

theorem exec_setpos_inBounds {x y : Nat} (hx : x < 80) (hy : y < 25) (s : State) :
    exec (.setpos x y) s = complete .nothing (pushOffset (linearOffset x y) s) := by
  rw [exec_setpos, setPosition_inBounds hx hy]

theorem exec_setpos_outOfBounds {x y : Nat} (h : OutOfBounds y x) (s : State) :
    exec (.setpos x y) s = complete .nothing s := by
  rw [exec_setpos, setPosition_outOfBounds h]

/-- Settles O19: the cursor goes to the given cell, and a cell of the screen has one offset. -/
theorem directSetposDesynchronises : Obligations.DirectSetposDesynchronises := by
  intro x y s hr ⟨hsx, hsy⟩ hx hy
  have hcursor := hwCursor_pushOffset_toNat hr hx hy
  have hxpos := pushOffset_x (linearOffset x y) s
  have hypos := pushOffset_y (linearOffset x y) s
  rw [exec_setpos_inBounds hx hy]
  generalize pushOffset (linearOffset x y) s = u at hcursor hxpos hypos ⊢
  have hsync : u.InSync ↔ x = s.x.toNat ∧ y = s.y.toNat := by
    rw [State.InSync, hcursor, State.offset, hxpos, hypos]
    omega
  exact ⟨_, rfl, hxpos, hypos, hcursor, hsync⟩

/-- The events of a push by the digits of its offset. -/
theorem pushEvents_linearOffset (cfg : Config) {x y : Nat} (hx : x < 80) (hy : y < 25) :
    pushEvents cfg (linearOffset x y) =
      [.portWrite cfg.crtcIndex 0x0F#8, .portWrite (cfg.crtcIndex + 1#16) (BitVec.ofNat 8 (y * 80 + x)),
        .portWrite cfg.crtcIndex 0x0E#8, .portWrite (cfg.crtcIndex + 1#16) (BitVec.ofNat 8 ((y * 80 + x) / 256))] := by
  have hoff : (linearOffset x y).toNat = y * 80 + x := by rw [linearOffset_toNat]; omega
  rw [pushEvents, extractLsb'_eq_ofNat_div, extractLsb'_eq_ofNat_div, hoff, pow_zero, Nat.div_one]
  rfl

/-- The command word of `SETPOS` (30_encoding.md R52). -/
theorem decodeTableWord_setpos {x y : Nat} (hx : x < 256) (hy : y < 256) :
    decodeTableWord 32 (0xB0000000 + x * 0x10000 + y * 0x100) = some (.setpos x y) := by
  refine decodeTableWord_header (op := 0xB#4) (a := BitVec.ofNat 8 x) (b := BitVec.ofNat 8 y) (c := 0#8)
    (by decide) ?_ ?_
  · rw [ofNat_toNat_byte hx, ofNat_toNat_byte hy]
    rfl
  · show Except.ok (Instr.setpos (BitVec.ofNat 8 x).toNat (BitVec.ofNat 8 y).toNat, []) = _
    rw [ofNat_toNat_byte hx, ofNat_toNat_byte hy]

/-- A push drives the CRT controller and nothing else, and leaves the index latch at 0x0E. -/
theorem pushOffset_frame (off : BitVec 16) (s : State) :
    pushOffset off s =
      { s with crtcIdx := 0x0E#8, crtcReg := (pushOffset off s).crtcReg, log := (pushOffset off s).log } := rfl

/-- Settles O42: one lemma for each outcome of the bounds check, and one for the command word. -/
theorem setposResult : Obligations.SetposResult := by
  intro x y s hr
  refine ⟨fun h => exec_setpos_outOfBounds h.symm s, fun hx hy => ?_, decodeTableWord_setpos⟩
  have hframe := pushOffset_frame (linearOffset x y) s
  have hevents := events_pushOffset (linearOffset x y) s
  have hcursor := hwCursor_pushOffset_toNat hr hx hy
  have hother := fun r => read_pushOffset_other (r := r) (linearOffset x y) s
  rw [pushEvents_linearOffset s.cfg hx hy] at hevents
  rw [exec_setpos_inBounds hx hy]
  generalize pushOffset (linearOffset x y) s = u at hframe hevents hcursor hother ⊢
  exact ⟨_, rfl, congrArg (fun u : State => { u with result := .nothing }) hframe, hevents, hcursor, hother⟩

/-- Settles O43: the second port write replaces the low byte, the fourth the high byte. -/
theorem cursorIsTornInsideAPush : Obligations.CursorIsTornInsideAPush := by
  rintro off s two three four hr rfl rfl rfl
  refine ⟨rfl, hwCursor_pushOffset hr off, ?_, rfl⟩
  have hhigh : s.hwCursor.extractLsb' 8 8 = Mem.read s.crtcReg 0x0E := BitVec.extractLsb'_append_eq_left
  rw [hhigh]
  exact congrArg₂ (· ++ ·) (Mem.read_write_other s.crtcReg (a := 0x0F) _ (by decide))
    (Mem.read_write_same hr 0x0F _)

/-- Settles O44: off the screen neither does anything; on it the push shows events. -/
theorem bothBoundsChecksAgree : Obligations.BothBoundsChecksAgree := by
  intro row col byte s hw
  by_cases h : OutOfBounds row col
  · exact ⟨_, _, exec_wrcell_outOfBounds hw h byte, exec_setpos_outOfBounds h s, by simp [State.events],
      by simp [State.events]⟩
  · obtain ⟨hr, hc⟩ : row < 25 ∧ col < 80 := by unfold OutOfBounds at h; omega
    have hevents : (pushOffset (linearOffset col row) s).events ≠ s.events := by
      rw [events_pushOffset]
      simp [pushEvents]
    exact ⟨_, _, exec_wrcell_inBounds hw hr hc byte, exec_setpos_inBounds hc hr s,
      ⟨nofun, fun he => absurd he hevents⟩, ⟨fun _ => hevents, fun _ => rfl⟩⟩

/-! ### Address decode (20_memory.md R30) -/

/-- Settles O45: row and column are the quotient and the remainder of the index by 80. -/
theorem addressDecodeIsABijection : Obligations.AddressDecodeIsABijection := by
  refine ⟨fun r c r' c' _ hc _ hc' h => ?_, fun i hi => ⟨i / 80, i % 80, ?_, ?_, ?_⟩,
    fun cfg r c hcfg hr hc => ?_⟩
  · unfold cellIndex at h
    omega
  · omega
  · omega
  · unfold cellIndex
    omega
  · obtain ⟨heven, -, -⟩ := hcfg
    have hlt := cellIndex_lt hr hc
    unfold cellAddr
    omega

/-! ### The devices outside the protocol -/

/-- `t` holds what `s` holds outside the display memory and the cursor-location registers. -/
def SameOutside (s t : State) : Prop :=
  t.cfg = s.cfg ∧
  (∀ a, a < s.cfg.vgaBase ∨ s.cfg.vgaBase + 4000 ≤ a → Mem.read t.mem a = Mem.read s.mem a) ∧
  (∀ r, r ≠ 0x0E → r ≠ 0x0F → Mem.read t.crtcReg r = Mem.read s.crtcReg r)

theorem SameOutside.run {s t : State} (h : SameOutside s t) {a : Action} (ha : a.Legal) : SameOutside s (a.run t) := by
  obtain ⟨hcfg, hm, hr⟩ := h
  cases a with
  | store i v =>
    have hi : i < 2000 := ha
    refine ⟨hcfg, fun a hout => ?_, hr⟩
    rw [← hm a hout]
    exact read_storeCell_other t.mem v (by rw [hcfg, cellAddr]; omega) (by rw [hcfg, cellAddr]; omega)
  | push off =>
    exact ⟨hcfg, hm, fun r hhigh hlow => (read_pushOffset_other off t hhigh hlow).trans (hr r hhigh hlow)⟩
  | moveTo | colour | begin | look => exact ⟨hcfg, hm, hr⟩

/-- Settles O25: an operation goes by legal actions, and none of them reaches outside. -/
theorem devicesOutsideTheProtocolUntouched : Obligations.DevicesOutsideTheProtocolUntouched := by
  intro i s t hm h
  obtain ⟨u, hd, ht⟩ := exec_does hm h
  have hu : SameOutside s u :=
    hd.keeps (P := SameOutside s) (fun _ _ ha hv => hv.run ha) ⟨rfl, fun _ _ => rfl, fun _ _ _ => rfl⟩
  rw [ht]
  exact hu.2

/-! ### Bit 7 of `ATTR` (70_reset_and_hazards.md R157) -/

/-- The foreground leaves bit 7. -/
theorem blink_withForeground (attr : Byte) (color : BitVec 4) : blink (withForeground attr color) = blink attr := by
  rw [blink, withForeground, BitVec.getLsbD_append]
  exact BitVec.getLsbD_extractLsb' 4 4 attr 3

/-- The background's bit 3 is bit 7 of `ATTR`. -/
theorem blink_withBackground (attr : Byte) (color : BitVec 4) :
    blink (withBackground attr color) = color.getLsbD 3 := by
  rw [blink, withBackground, BitVec.getLsbD_append]
  rfl

/-- Settles O26: of the three operations that write `ATTR`, each keeps bit 7 clear. -/
theorem blinkStaysClear : Obligations.BlinkStaysClear := by
  intro i s t hcfg hs hset h
  obtain ⟨-, hattr, -⟩ := exec_keepsUnnamed h
  cases i with
  | init =>
    obtain ⟨-, -, hdefault⟩ := hcfg
    cases h
    exact hdefault
  | setfg color =>
    cases (afterInit_next h).2
    exact (blink_withForeground s.attr color).trans hs
  | setbg color =>
    cases (afterInit_next h).2
    exact (blink_withBackground s.attr color).trans (Nat.testBit_lt_two_pow (hset color rfl))
  | wrchar | delchar | wrcell | wrbytes | clear | advance | retreat | newline | setpos | encode | tovalue | nulldesc =>
    rwa [hattr rfl]

end Sys2Proof.Machine

namespace Sys2Proof.Machine

/-! ### `SETBG` (40_display_cell_ops.md R77) -/

/-- Overwriting the high nibble is masking it off and putting the colour in. -/
theorem withBackground_eq (attr : Byte) (color : BitVec 4) :
    withBackground attr color = (attr &&& 0x0F#8) ||| (color.setWidth 8 <<< 4) := by
  apply BitVec.eq_of_getLsbD_eq
  intro i hi
  simp only [withBackground, BitVec.getLsbD_append, BitVec.getLsbD_extractLsb', BitVec.getLsbD_or,
    BitVec.getLsbD_and, BitVec.getLsbD_setWidth, BitVec.getLsbD_shiftLeft]
  interval_cases i <;> simp

theorem exec_setbg {s : State} (hw : s.initDone = true) (color : BitVec 4) :
    exec (.setbg color) s = complete .nothing { s with attr := withBackground s.attr color } :=
  afterInit_true hw _

/-- The command word of `SETBG` (30_encoding.md R52). -/
theorem decodeTableWord_setbg (color : BitVec 4) :
    decodeTableWord 32 (0xA0000000 + color.toNat) = some (.setbg color) := by
  refine decodeTableWord_header (op := 0xA#4) (a := 0#8) (b := 0#8) (c := 0#4 ++ color) (by decide) ?_
    (colorOperand_field color .setbg [])
  rw [toNat_append_eq]
  simp

/-- Settles O35: overwriting the high nibble is the masked form, and no other field is written. -/
theorem setBackgroundResult : Obligations.SetBackgroundResult := by
  intro color s hw
  refine ⟨?_, decodeTableWord_setbg color⟩
  rw [exec_setbg hw, withBackground_eq]
  rfl

/-- Both colours set, in either order: background above foreground (95_test_vectors.md S9). -/
theorem withBackground_withForeground (attr : Byte) (f b : BitVec 4) :
    withBackground (withForeground attr f) b = b ++ f ∧ withForeground (withBackground attr b) f = b ++ f :=
  ⟨congrArg (b ++ ·) BitVec.extractLsb'_append_eq_right, congrArg (· ++ f) BitVec.extractLsb'_append_eq_left⟩

theorem append_eq_ofNat (b f : BitVec 4) : b ++ f = BitVec.ofNat 8 (b.toNat * 16 + f.toNat) := by
  have hb := b.isLt
  have hf := f.isLt
  apply BitVec.eq_of_toNat_eq
  rw [toNat_append_eq, BitVec.toNat_ofNat]
  omega

/-- Settles O36: each colour replaces its own nibble. -/
theorem attributeNibblesAreIndependent : Obligations.AttributeNibblesAreIndependent := by
  intro f b s t hw
  obtain ⟨hfb, hbf⟩ := withBackground_withForeground s.attr f b
  rw [exec_setfg hw, exec_setbg hw, ← append_eq_ofNat]
  refine ⟨fun h => ?_, fun h => ?_⟩
  · cases h
    rw [exec_setbg (by exact hw), hfb]
    rfl
  · cases h
    rw [exec_setfg (by exact hw), hbf]
    rfl

/-! ### `CLEAR` (40_display_cell_ops.md R75) -/

/-- Writing cells of the screen changes no byte outside the display memory. -/
theorem read_storeCells_outside {cfg : Config} {v : CellWord} {l : List Nat} {m : Mem} {a : Nat}
    (hl : ∀ i ∈ l, i < 2000) (hm : Mem.wf m) (ha : a < cfg.vgaBase ∨ cfg.vgaBase + 4000 ≤ a) :
    Mem.read (storeCells cfg v l m) a = Mem.read m a := by
  have hne : ∀ i ∈ l, a ≠ cellAddr cfg i ∧ a ≠ cellAddr cfg i + 1 := by
    intro i hi
    have := hl i hi
    unfold cellAddr
    omega
  obtain ⟨-, hread⟩ := storeCells_spec cfg v l hm
  rw [hread, if_neg fun ⟨i, hi, h⟩ => (hne i hi).1 h, if_neg fun ⟨i, hi, h⟩ => (hne i hi).2 h]

theorem clearScreen_mem {s : State} (hm : Mem.wf s.mem) :
    (clearScreen s).mem = storeCells s.cfg (cellOf s.attr 0#8) (List.range 2000) s.mem := by
  rw [clearScreen_eq hm]

/-- `CLEAR` changes no byte outside the display memory. -/
theorem read_clearScreen_outside {s : State} (hm : Mem.wf s.mem) {a : Nat}
    (ha : a < s.cfg.vgaBase ∨ s.cfg.vgaBase + 4000 ≤ a) : Mem.read (clearScreen s).mem a = Mem.read s.mem a := by
  rw [clearScreen_mem hm]
  exact read_storeCells_outside (fun i hi => List.mem_range.1 hi) hm ha

theorem events_clearScreen {s : State} (hm : Mem.wf s.mem) :
    (clearScreen s).events = s.events ++ (List.range 2000).map fun i => Event.cellWrite i (cellOf s.attr 0#8) := by
  rw [clearScreen_eq hm, State.events, List.reverse_append, List.reverse_reverse]
  rfl

theorem clearScreen_frame (s : State) :
    clearScreen s = { s with mem := (clearScreen s).mem, log := (clearScreen s).log } := by
  simp only [clearScreen]

theorem exec_clear {s : State} (hw : s.initDone = true) : exec .clear s = complete .nothing (clearScreen s) :=
  afterInit_true hw _

/-- Settles O33: every cell is blank under `ATTR`, and nothing outside the cells changes. -/
theorem clearResult : Obligations.ClearResult := by
  intro s hw hm
  have hframe := clearScreen_frame s
  have hcell : ∀ i, i < 2000 → (clearScreen s).cell i = cellOf s.attr 0#8 := fun i hi => cell_clearScreen hm hi
  have hread := fun a ha => read_clearScreen_outside (a := a) hm ha
  have hevents := events_clearScreen hm
  rw [exec_clear hw]
  generalize clearScreen s = u at hframe hcell hread hevents ⊢
  refine ⟨_, rfl, congrArg (fun u : State => { u with result := .nothing }) hframe, fun i hi => ⟨hcell i hi, ?_⟩,
    hread, hevents⟩
  show isBlank (u.cell i) = true
  rw [hcell i hi, isBlank, charByte_cellOf]
  rfl

/-! ### Runs of advances (41_display_position.md R93, R95) -/

/-- Of `n` `ADVANCE`s each pushes the next offset, and none touches a cell or `ATTR`. -/
theorem keeps_of_advance_run {run : Nat → State} (hr : (run 0).PositionInRange) (n : Nat)
    (h : ∀ k, k < n → exec .advance (run k) = .next (run (k + 1))) :
    (run n).cfg = (run 0).cfg ∧ (run n).mem = (run 0).mem ∧ (run n).attr = (run 0).attr ∧
      (run n).events = (run 0).events ++
        (List.range n).flatMap fun j => pushEvents (run 0).cfg (BitVec.ofNat 16 (((run 0).offset + j + 1) % 2000)) := by
  induction n with
  | zero => exact ⟨rfl, rfl, rfl, (List.append_nil _).symm⟩
  | succ n ih =>
    have hbefore := fun k (hk : k < n) => h k (Nat.lt_succ_of_lt hk)
    obtain ⟨hcfg, hmem, hattr, hevents⟩ := ih hbefore
    obtain ⟨hin, hoff⟩ := offset_of_advance_run hr n hbefore
    obtain ⟨-, hnext, -⟩ := advance_spec hin
    have hmoves := (advance_movesOnly (run n)).writesOnly
    rw [eq_advance_of_exec_advance (h n n.lt_succ_self)]
    refine ⟨(advance_cfg (run n)).trans hcfg, (advance_mem (run n)).trans hmem, hmoves.attr_eq.trans hattr, ?_⟩
    refine (events_advance hin).trans ?_
    rw [hevents, hnext, hoff, hcfg, Nat.mod_add_mod, List.range_succ, List.flatMap_append, List.flatMap_singleton,
      List.append_assoc]

/-- Settles O38: the position by the offset of the run, the rest by what a run keeps and shows. -/
theorem advanceRepeated : Obligations.AdvanceRepeated := by
  intro n run _ hr h
  obtain ⟨hin, hoff⟩ := offset_of_advance_run hr n h
  obtain ⟨hcolumn, hrow⟩ := position_of_offset hin
  obtain ⟨-, hkept⟩ := keeps_of_advance_run hr n h
  rw [hoff] at hcolumn hrow
  exact ⟨hcolumn, hrow, hkept⟩

/-- A run to the end of the row ends in column 0 of the next row, the last row being followed by the first. -/
theorem newLine_position {s : State} (h : s.PositionInRange) :
    (newLine s).x = 0#7 ∧ (newLine s).y.toNat = (s.y.toNat + 1) % 25 := by
  rw [newLine_eq h]
  obtain ⟨hin, hoff, -⟩ := advances_spec (80 - s.x.toNat) h
  generalize advances (80 - s.x.toNat) s = t at hin hoff ⊢
  obtain ⟨hcolumn, hrow⟩ := position_of_offset hin
  obtain ⟨hx, hy⟩ := h
  rw [hoff, State.offset] at hcolumn hrow
  exact ⟨BitVec.eq_of_toNat_eq (by rw [hcolumn]; simp; omega), by omega⟩

theorem events_newLine {s : State} (h : s.PositionInRange) :
    (newLine s).events = s.events ++
      (List.range (80 - s.x.toNat)).flatMap fun j =>
        pushEvents s.cfg (BitVec.ofNat 16 ((s.offset + j + 1) % 2000)) := by
  obtain ⟨-, -, hlog, -⟩ := advances_spec (80 - s.x.toNat) h
  rw [newLine_eq h, State.events, hlog, List.reverse_append, List.reverse_reverse, advancePushes_eq]
  rfl

theorem newLine_movesOnly (s : State) : MovesOnly s (newLine s) := advanceUntilRowChanges_movesOnly s.y 128 s

/-- Settles O41: a new line is the advances to the end of the row. -/
theorem newlineResult : Obligations.NewlineResult := by
  intro s hw h
  have hmoves := newLine_movesOnly s
  obtain ⟨hx, hy⟩ := newLine_position h
  have hevents := events_newLine h
  rw [exec_newline hw]
  generalize newLine s = u at hmoves hx hy hevents ⊢
  refine ⟨_, rfl, ?_, hy, hevents⟩
  rw [← hx]
  exact congrArg (fun u : State => { u with result := .nothing }) hmoves

/-! ### The row scan and `RETREAT` (41_display_position.md R91, R92) -/

/-- Settles O40: the scan's column, its reads and its frame, each by its lemma. -/
theorem rowScanResult : Obligations.RowScanResult := by
  intro r s hr
  have hle := scanRow_le r 80 s
  have hspec := scanRow_spec r 80 s
  have hstate := scanRow_state r 80 s
  have hscan : lastNonblankColumn r s = .ok (scanRow r 80 s) := if_pos hr
  generalize scanRow r 80 s = p at hle hspec hstate hscan
  obtain ⟨c, t⟩ := p
  have hlog : t.log = (scanReads r c 80).reverse ++ s.log := congrArg State.log hstate
  refine ⟨c, t, hscan, by omega, hspec, ?_, ?_⟩
  · rw [hlog]
    exact hstate
  · rw [State.events, hlog, List.reverse_append, List.reverse_reverse]
    rfl

/-- Settles O39: what a retreat in range does, and that at the origin it does nothing. -/
theorem retreatResult : Obligations.RetreatResult := by
  intro s hw h
  obtain ⟨u, hu, hin, hland, hevents, hmoves, -⟩ := retreat_spec h
  refine ⟨_, exec_retreat_of_ok hw hu, congrArg (fun u : State => { u with result := .nothing }) hmoves, hin, hland,
    hevents, fun hx hy => ?_⟩
  cases hu.symm.trans (retreat_origin ⟨hx, hy⟩)
  rfl

/-- Settles O29: the retreat, and then one cell write where it lands. -/
theorem delcharResult : Obligations.DelcharResult := by
  intro s hw h hm
  obtain ⟨u, hu, hin, hland, hevents, hmoves, -⟩ := retreat_spec h
  have hattr : u.attr = s.attr := hmoves.writesOnly.attr_eq
  have hcfg : u.cfg = s.cfg := by rw [hmoves]
  have hmem : u.mem = s.mem := hmoves.mem_eq
  have hx := exec_delchar_of_ok hw hu
  rw [writeCellAt_inBounds hin.2 hin.1, hattr] at hx
  have hwrites : WritesOnly s (cellWrite (cellIndex u.y.toNat u.x.toNat) (cellOf s.attr 0#8) u) :=
    hmoves.writesOnly.trans rfl
  refine ⟨_, hx, congrArg (fun u : State => { u with result := .nothing }) hwrites, hin, hland,
    cell_cellWrite_same (hmem ▸ hm) _ _, fun a ha ha' => ?_, ?_⟩
  · rw [← hmem]
    rw [← hcfg] at ha ha'
    exact read_storeCell_other u.mem _ ha ha'
  · exact (events_cellWrite _ _ u).trans (congrArg (· ++ _) hevents)

end Sys2Proof.Machine

namespace Sys2Proof.Machine

/-! ### Memory follows the events an operation adds (20_memory.md R31) -/

/-- The address belongs to no cell that the events write. -/
def Unwritten (cfg : Config) (a : Nat) (es : List Event) : Prop :=
  ∀ i v, Event.cellWrite i v ∈ es → a ≠ cellAddr cfg i ∧ a ≠ cellAddr cfg i + 1

theorem read_run_of_unwritten {a : Action} {s : State} {b : Nat} (h : Unwritten s.cfg b (a.events s.cfg)) :
    Mem.read (a.run s).mem b = Mem.read s.mem b := by
  cases a with
  | store i v =>
    obtain ⟨hlow, hhigh⟩ := h i v (List.mem_singleton_self _)
    exact read_storeCell_other s.mem v hlow hhigh
  | moveTo | colour | begin | look | push => rfl

/-- After a sequence of actions each cell holds what the actions' events last wrote to it, and each byte they write to
no cell of is as it was. -/
theorem memory_runActions (as : List Action) {s : State} (hm : Mem.wf s.mem) :
    (∀ n, (runActions as s).cell n = (lastWrite n (as.flatMap (Action.events s.cfg))).getD (s.cell n)) ∧
      ∀ b, Unwritten s.cfg b (as.flatMap (Action.events s.cfg)) →
        Mem.read (runActions as s).mem b = Mem.read s.mem b := by
  induction as generalizing s with
  | nil => exact ⟨fun _ => rfl, fun _ _ => rfl⟩
  | cons a as ih =>
    have hcfg : (a.run s).cfg = s.cfg := (events_runActions [a] s).1
    obtain ⟨hcell, hread⟩ := ih (wf_mem_run hm a)
    rw [hcfg] at hcell hread
    rw [List.flatMap_cons]
    refine ⟨fun n => ?_, fun b hb => ?_⟩
    · rw [lastWrite_append, Option.getD_or, ← cell_run hm a n]
      exact hcell n
    · have hrest := hread b fun i v hi => hb i v (List.mem_append_right _ hi)
      exact hrest.trans (read_run_of_unwritten fun i v hi => hb i v (List.mem_append_left _ hi))

/-- Legal actions that added the events `es` left in memory what `es` wrote. -/
theorem Does.memory {s t : State} {es : List Event} (h : Does s t) (hm : Mem.wf s.mem)
    (hes : t.events = s.events ++ es) :
    (∀ n, t.cell n = (lastWrite n es).getD (s.cell n)) ∧
      ∀ b, Unwritten s.cfg b es → Mem.read t.mem b = Mem.read s.mem b := by
  obtain ⟨as, -, rfl⟩ := h
  rw [(events_runActions as s).2] at hes
  rw [← List.append_cancel_left hes]
  exact memory_runActions as hm

/-! ### `WRBYTES` (40_display_cell_ops.md R74) -/

/-- The cell writes alone of writing characters from an offset. -/
def charWrites (attr : Byte) (off : Nat) (bs : List Byte) : List Event :=
  bs.mapIdx fun j b => Event.cellWrite ((off + j) % 2000) (cellOf attr b)

theorem charWrites_cons (attr : Byte) (off : Nat) (b : Byte) (bs : List Byte) :
    charWrites attr off (b :: bs) = .cellWrite (off % 2000) (cellOf attr b) :: charWrites attr (off + 1) bs := by
  simp only [charWrites, List.mapIdx_cons, Nat.add_zero, List.cons.injEq, true_and]
  congr 1
  funext j c
  rw [Nat.add_assoc, Nat.add_comm 1 j]

theorem lastWrite_pushEvents (n : Nat) (cfg : Config) (off : BitVec 16) : lastWrite n (pushEvents cfg off) = none := rfl

/-- Pushes write no cell, so the characters' events and their cell writes leave the same in memory. -/
theorem lastWrite_charEvents (n : Nat) (cfg : Config) (attr : Byte) (off : Nat) (bs : List Byte) :
    lastWrite n (charEvents cfg attr off bs) = lastWrite n (charWrites attr off bs) := by
  induction bs generalizing off with
  | nil => rfl
  | cons b bs ih =>
    rw [charEvents, charWrites_cons, ← List.singleton_append, ← List.singleton_append (l := charWrites _ _ _),
      lastWrite_append, lastWrite_append, lastWrite_append, lastWrite_pushEvents, Option.or_none, ih]

/-- The cells that characters write are those from the offset on, as many as there are characters. -/
theorem mem_charEvents {cfg : Config} {attr : Byte} {off : Nat} {bs : List Byte} {i : Nat} {v : CellWord}
    (h : Event.cellWrite i v ∈ charEvents cfg attr off bs) : ∃ j < bs.length, i = (off + j) % 2000 := by
  induction bs generalizing off with
  | nil => cases h
  | cons b bs ih =>
    rw [charEvents, List.mem_cons, List.mem_append] at h
    rcases h with h | h | h
    · injection h with hi
      exact ⟨0, Nat.zero_lt_succ _, hi⟩
    · simp [pushEvents] at h
    · obtain ⟨j, hj, hi⟩ := ih h
      exact ⟨j + 1, Nat.succ_lt_succ hj, by rw [hi]; congr 1; omega⟩

/-- Settles O31: the characters' events, and memory by them. -/
theorem wrbytesResult : Obligations.WrbytesResult := by
  intro sequence s hw h hm
  obtain ⟨hin, hoff, hlog, hwrites⟩ := writeBytes_spec sequence h
  have hdoes := does_writeBytes sequence s
  rw [exec_wrbytes hw]
  generalize writeBytes sequence s = u at hin hoff hlog hwrites hdoes ⊢
  generalize sequence.takeWhile (· != 0#8) = characters at hoff hlog ⊢
  have hevents : u.events = s.events ++ charEvents s.cfg s.attr s.offset characters := by
    rw [State.events, hlog, List.reverse_append, List.reverse_reverse]
    rfl
  obtain ⟨hcell, hread⟩ := hdoes.memory hm hevents
  refine ⟨_, rfl, congrArg (fun u : State => { u with result := .nothing }) hwrites, hin, hoff, ?_, fun n => ?_,
    fun a ha => hread a fun i v hi => ?_⟩
  · rw [← charEvents_eq]
    exact hevents
  · exact (hcell n).trans (by rw [lastWrite_charEvents]; rfl)
  · obtain ⟨j, hj, rfl⟩ := mem_charEvents hi
    exact ha j hj

end Sys2Proof.Machine

namespace Sys2Proof.Machine

/-! ### The packing and the static table (43_descriptor_encoder.md R110, R118) -/

/-- Every record is the record of its fields. -/
theorem packRecord_fields (d : Descriptor) :
    packRecord (recordBase d) (recordLimit d) (recordFlags d) (recordAccess d) = d := by
  obtain ⟨d0, d1, d2, d3, d4, d5, d6, d7⟩ := d
  obtain ⟨h2, h3, h4, h7⟩ := split_bytes32 d7 d4 d3 d2
  obtain ⟨h0, h1, hnibble⟩ := split_bytes20 (d6.extractLsb' 0 4) d1 d0
  have h6 := (congrArg (d6.extractLsb' 4 4 ++ ·) hnibble).trans (join_nibbles d6)
  rw [packRecord, Descriptor.mk.injEq]
  exact ⟨h0, h1, h2, h3, h4, rfl, h6, h7⟩

/-- Settles O49: the fields are read back from the record, and the record is put together from its fields. -/
theorem packingIsABijection : Obligations.PackingIsABijection :=
  ⟨fun base limit flags access => ⟨recordBase_packRecord base limit flags access,
    recordLimit_packRecord base limit flags access, recordFlags_packRecord base limit flags access,
    recordAccess_packRecord base limit flags access⟩, packRecord_fields⟩

/-- The static table is what `ENCODE` makes of the named constants. -/
theorem staticTable_eq_packRecord :
    staticTable =
      [nullRecord, packRecord 0#32 0xFFFFF#20 flat32 kernelCode, packRecord 0#32 0xFFFFF#20 flat32 kernelData] := by
  decide

theorem tableByte_add (s : State) (k : Nat) : s.tableByte (s.cfg.gdtAddr + k) = (tableImage s.gdt)[k]? := by
  rw [State.tableByte, if_pos (Nat.le_add_right _ _), Nat.add_sub_cancel_left]

/-- Byte `k` of descriptor `n` is byte `8n + k` of the table's image. -/
theorem tableImage_staticTable :
    ∀ n < 3, ∀ k < 8,
      (tableImage staticTable)[8 * n + k]? = (staticTable[n]?).bind fun d => (recordBytes d)[k]? := by
  decide

/-- Settles O50: the table is the constant, and its image has 24 bytes. -/
theorem staticTableImage : Obligations.StaticTableImage := by
  intro s ⟨hgdt, hlen⟩
  refine ⟨hgdt.trans staticTable_eq_packRecord, by rw [hlen, hgdt]; rfl, fun n k hn hk => ?_, fun a ha => ?_⟩
  · rw [Nat.add_assoc, tableByte_add, hgdt]
    exact tableImage_staticTable n hn k hk
  · rcases ha with hlow | hhigh
    · exact if_neg (Nat.not_le_of_lt hlow)
    · obtain ⟨k, rfl⟩ := Nat.exists_eq_add_of_le hhigh
      rw [Nat.add_assoc, tableByte_add, hgdt]
      exact List.getElem?_eq_none (show 24 ≤ 24 + k from Nat.le_add_right 24 k)

end Sys2Proof.Machine

namespace Sys2Proof

/-! ### Refused encodings (30_encoding.md R56) -/

theorem decodeDisplay_of_z_zero {h : Byte} (hz : zOf h = 0#4) (a b c : Byte) (rest : List Byte) :
    decodeDisplay (c :: b :: a :: h :: rest) = decodeHeader (opOf h).toNat a b c rest := if_pos hz

theorem decodeHeader_reserved {op : Nat} (h : 12 ≤ op) (a b c : Byte) (rest : List Byte) :
    decodeHeader op a b c rest = .error .reservedOpcode := by
  unfold decodeHeader
  split
  case h_13 => rfl
  all_goals omega

/-- The upper nibble of a byte is zero where its number is below 16. -/
theorem upperNibble_eq_zero_iff (c : Byte) : c.extractLsb' 4 4 = 0#4 ↔ c.toNat < 16 := by
  have hc := c.isLt
  rw [← BitVec.toNat_inj, BitVec.extractLsb'_toNat, Nat.shiftRight_eq_div_pow, BitVec.toNat_ofNat]
  omega

theorem colorOperand_refused {a b c : Byte} (h : ¬(a = 0#8 ∧ b = 0#8 ∧ c.toNat < 16)) (i : BitVec 4 → Instr)
    (rest : List Byte) : colorOperand a b c i rest = .error .unusedOperandNonZero :=
  if_neg (by rwa [upperNibble_eq_zero_iff])

theorem decodeDisplay_truncated {bytes : List Byte} (h : bytes.length < 4) :
    decodeDisplay bytes = .error .truncatedHeader := by
  unfold decodeDisplay
  split
  · simp only [List.length_cons] at h
    omega
  · rfl

theorem decodeRequest_truncated {bytes : List Byte} (h : bytes.length < 9) :
    decodeRequest bytes = .error .truncatedRequest := by
  unfold decodeRequest
  split
  · simp only [List.length_cons] at h
    omega
  · rfl

/-- A request with `z` zero and a function that is none of the three is refused. -/
theorem decodeRequest_reserved {h : Byte} (hz : zOf h = 0#4) (hfn : 3 ≤ (opOf h).toNat)
    (q0 q1 q2 q3 q4 q5 q6 q7 : Byte) (rest : List Byte) :
    decodeRequest (q0 :: q1 :: q2 :: q3 :: q4 :: q5 :: q6 :: q7 :: h :: rest) = .error .reservedFunction := by
  rw [decodeRequest, if_pos hz]
  split
  case h_4 => rfl
  all_goals omega

/-- Settles O4: a header by its operation code and the check of its operands, a request by its function, and a stream
that ends early by its length. -/
theorem reservedEncodingsRefused : Obligations.ReservedEncodingsRefused := by
  refine ⟨fun a b c h rest => ⟨fun hz => if_neg hz, fun hz hop => ?_, fun hz hop hne => ?_, fun hz hop hne => ?_,
    fun hz hop hne => ?_, fun hz hop hne => ?_, fun hz hop hc hlen => ?_⟩, fun _ => decodeDisplay_truncated,
    fun q0 q1 q2 q3 q4 q5 q6 q7 h rest => ⟨fun hz => if_neg hz,
      fun hz hfn => decodeRequest_reserved hz hfn q0 q1 q2 q3 q4 q5 q6 q7 rest, fun hh hq => ?_⟩,
    fun _ => decodeRequest_truncated⟩
  case refine_7 =>
    subst hh
    refine if_neg ?_
    rintro ⟨rfl, rfl, rfl, rfl, rfl, rfl, rfl, rfl⟩
    simp at hq
  all_goals rw [decodeDisplay_of_z_zero hz]
  · exact decodeHeader_reserved hop a b c rest
  · simp only [List.mem_cons, List.not_mem_nil, or_false] at hop
    rcases hop with hop | hop | hop | hop | hop | hop <;>
    · rw [hop]
      exact if_neg hne
  · rw [hop]
    exact if_neg hne
  · simp only [List.mem_cons, List.not_mem_nil, or_false] at hop
    rcases hop with hop | hop <;>
    · rw [hop]
      exact colorOperand_refused hne _ rest
  · simp only [List.mem_cons, List.not_mem_nil, or_false] at hop
    rcases hop with hop | hop <;>
    · rw [hop]
      exact if_neg hne
  · rw [hop]
    exact (if_pos hc).trans (if_neg (Nat.not_le_of_lt hlen))

/-- Settles O5: the listed words are those of the operations' own lemmas. -/
theorem sampleWordsDecode : Obligations.SampleWordsDecode :=
  ⟨Machine.decodeTableWord_wrchar 0x41#8,
    Machine.decodeTableWord_wrcell (row := 24) (col := 79) (by decide) (by decide) 0x58#8,
    Machine.decodeTableWord_setbg 9#4, Machine.decodeTableWord_setpos (x := 79) (y := 24) (by decide) (by decide),
    decodeTableWord_header (op := 0x8#4) (a := 0#8) (b := 0#8) (c := 0#8) (by decide) rfl rfl,
    Machine.decodeTableWord_encode 0x12345678#32 0xABCDE#20 0x5#4 0x9F#8,
    Machine.decodeTableWord_tovalue ⟨0xDE#8, 0xBC#8, 0x78#8, 0x56#8, 0x34#8, 0x9F#8, 0x5A#8, 0x12#8⟩⟩

end Sys2Proof

namespace Sys2Proof

/-! ### The opcode table selects what decodes (30_encoding.md R52, R54) -/

/-- A row whose mask takes the whole top byte selects a word by its top byte and by the operand bits below it. -/
theorem OpcodeRow.selects_eq {r : OpcodeRow} {k top low : Nat} (hmask : r.mask / 2 ^ k = 0xFF)
    (hpattern : r.pattern % 2 ^ k = 0) (htop : top < 256) (hlow : low < 2 ^ k) :
    r.selects (top * 2 ^ k + low) = (low &&& r.mask % 2 ^ k == 0 && r.pattern / 2 ^ k == top) := by
  have hdiv : (top * 2 ^ k + low) / 2 ^ k = top := by
    rw [Nat.add_comm, Nat.add_mul_div_right _ _ (Nat.two_pow_pos k), Nat.div_eq_of_lt hlow, Nat.zero_add]
  have hmod : (top * 2 ^ k + low) % 2 ^ k = low := by
    rw [Nat.mul_comm, Nat.mul_add_mod, Nat.mod_eq_of_lt hlow]
  have htop' : top &&& 0xFF = top := Nat.and_two_pow_sub_one_of_lt_two_pow (n := 8) htop
  rw [Bool.eq_iff_iff, OpcodeRow.selects, beq_iff_eq, Nat.ext_div_mod_iff (2 ^ k), Nat.and_div_two_pow,
    Nat.and_mod_two_pow, hdiv, hmod, hmask, hpattern, htop', Bool.and_eq_true, beq_iff_eq, beq_iff_eq,
    eq_comm (a := top), and_comm]

/-- Every row of a table takes the whole byte above bit `k`, and has its `z` zero there and its pattern clear below. -/
def TopByteRows (rows : List OpcodeRow) (k : Nat) : Prop :=
  ∀ r ∈ rows, r.mask / 2 ^ k = 0xFF ∧ r.pattern % 2 ^ k = 0 ∧ r.pattern / 2 ^ k % 16 = 0

theorem topByteRows_displayRows : TopByteRows displayRows 24 := by unfold TopByteRows; decide

theorem topByteRows_requestRows : TopByteRows requestRows 64 := by unfold TopByteRows; decide

/-- The rows of a table whose top byte is an operation code above zeros. -/
def rowsOf (rows : List OpcodeRow) (k op : Nat) : List OpcodeRow := rows.filter fun r => r.pattern / 2 ^ k == op * 16

theorem toNat_eq_opOf_zOf (h : Byte) : h.toNat = (opOf h).toNat * 16 + (zOf h).toNat :=
  (congrArg BitVec.toNat (join_nibbles h).symm).trans (Machine.toNat_append_eq (opOf h) (zOf h))

/-- The rows of a table that select a word: first by the top byte, then by the operand bits. -/
theorem filter_selects {rows : List OpcodeRow} {k top low : Nat} (hrows : TopByteRows rows k) (htop : top < 256)
    (hlow : low < 2 ^ k) :
    rows.filter (fun r => r.selects (top * 2 ^ k + low)) =
      (rows.filter fun r => r.pattern / 2 ^ k == top).filter fun r => low &&& r.mask % 2 ^ k == 0 := by
  rw [List.filter_filter]
  refine List.filter_congr fun r hr => ?_
  obtain ⟨hmask, hpattern, -⟩ := hrows r hr
  exact OpcodeRow.selects_eq hmask hpattern htop hlow

theorem filter_selects_of_z_zero {rows : List OpcodeRow} {k low : Nat} {h : Byte} (hrows : TopByteRows rows k)
    (hlow : low < 2 ^ k) (hz : zOf h = 0#4) :
    rows.filter (fun r => r.selects (h.toNat * 2 ^ k + low)) =
      (rowsOf rows k (opOf h).toNat).filter fun r => low &&& r.mask % 2 ^ k == 0 := by
  have htop : h.toNat = (opOf h).toNat * 16 := by rw [toNat_eq_opOf_zOf h, hz]; rfl
  rw [filter_selects hrows h.isLt hlow, rowsOf, ← htop]

theorem filter_selects_of_z_ne_zero {rows : List OpcodeRow} {k low : Nat} {h : Byte} (hrows : TopByteRows rows k)
    (hlow : low < 2 ^ k) (hz : zOf h ≠ 0#4) : rows.filter (fun r => r.selects (h.toNat * 2 ^ k + low)) = [] := by
  rw [filter_selects hrows h.isLt hlow]
  have hnone : rows.filter (fun r => r.pattern / 2 ^ k == h.toNat) = [] := by
    refine List.filter_eq_nil_iff.2 fun r hr => ?_
    have hz' : (zOf h).toNat ≠ 0 := fun h0 => hz (BitVec.eq_of_toNat_eq h0)
    have hzlt := (zOf h).isLt
    have htop := toNat_eq_opOf_zOf h
    obtain ⟨-, -, hrow⟩ := hrows r hr
    rw [beq_iff_eq]
    omega
  rw [hnone, List.filter_nil]

theorem rowsOf_reserved {rows : List OpcodeRow} {k n op : Nat} (hrows : ∀ r ∈ rows, r.pattern / 2 ^ k < n * 16)
    (h : n ≤ op) : rowsOf rows k op = [] := by
  refine List.filter_eq_nil_iff.2 fun r hr => ?_
  have := hrows r hr
  rw [beq_iff_eq]
  omega

/-- Bits `k` to `k + n - 1` of a number are clear exactly if the digit they form is zero. -/
theorem and_field_eq_zero_iff {m : Nat} (low n k : Nat) (hm : m = (2 ^ n - 1) * 2 ^ k) :
    low &&& m = 0 ↔ low / 2 ^ k % 2 ^ n = 0 := by
  rw [hm, Nat.ext_div_mod_iff (2 ^ k), Nat.and_div_two_pow, Nat.and_mod_two_pow,
    Nat.mul_div_cancel _ (Nat.two_pow_pos k), Nat.mul_mod_left, Nat.and_zero, Nat.and_two_pow_sub_one_eq_mod,
    Nat.zero_div, Nat.zero_mod]
  exact and_iff_left rfl

/-- A decoder's answer agrees with the rows that select its word: one row, of the operation decoded, with `after` left
of the stream; or an error and no row. -/
def AgreesWith (rows : List OpcodeRow) (after : List Byte) (answer : Except DecodeError (Instr × List Byte)) : Prop :=
  (∀ i rest, answer = .ok (i, rest) → rows.map OpcodeRow.mnemonic = [i.mnemonic] ∧ rest = after) ∧
    ∀ e, answer = .error e → rows = []

theorem agreesWith_error (after : List Byte) (e : DecodeError) : AgreesWith [] after (.error e) :=
  ⟨nofun, fun _ _ => rfl⟩

theorem agreesWith_ok {r : OpcodeRow} {i : Instr} (h : r.mnemonic = i.mnemonic) (after : List Byte) :
    AgreesWith [r] after (.ok (i, after)) := by
  refine ⟨fun j rest hj => ?_, nofun⟩
  cases hj
  exact ⟨congrArg (fun m => [m]) h, rfl⟩

/-- Where the one row left by the top byte asks of the operand bits what the decoder asks of the operands, they
agree. -/
theorem agreesWith_ite {r : OpcodeRow} {i : Instr} (hm : r.mnemonic = i.mnemonic) {low m : Nat} {P : Prop} [Decidable P]
    (hP : low &&& m = 0 ↔ P) (after : List Byte) (e : DecodeError) (k : Nat) (hr : r.mask % 2 ^ k = m) :
    AgreesWith ([r].filter fun r => low &&& r.mask % 2 ^ k == 0) after (if P then .ok (i, after) else .error e) := by
  by_cases h : P
  · have hz := hP.2 h
    rw [if_pos h, List.filter_cons_of_pos (by rw [hr, hz]; rfl), List.filter_nil]
    exact agreesWith_ok hm after
  · have hnz : low &&& m ≠ 0 := fun hz => h (hP.1 hz)
    rw [if_neg h, List.filter_cons_of_neg (by rw [hr, beq_iff_eq]; exact hnz), List.filter_nil]
    exact agreesWith_error after e

/-- A row that asks nothing of the operand bits agrees with a decoder that asks nothing of the operands. -/
theorem agreesWith_ok_of_mask {r : OpcodeRow} {i : Instr} (hm : r.mnemonic = i.mnemonic) (low : Nat)
    (after : List Byte) (k : Nat) (hr : r.mask % 2 ^ k = 0) :
    AgreesWith ([r].filter fun r => low &&& r.mask % 2 ^ k == 0) after (.ok (i, after)) := by
  rw [List.filter_cons_of_pos (by rw [hr, Nat.and_zero]; rfl), List.filter_nil]
  exact agreesWith_ok hm after

/-- The operand bits of a display header, `H[23:0]`. -/
def operandBits (a b c : Byte) : Nat := a.toNat * 2 ^ 16 + b.toNat * 2 ^ 8 + c.toNat

theorem operandBits_lt (a b c : Byte) : operandBits a b c < 2 ^ 24 := by
  have ha := a.isLt
  have hb := b.isLt
  have hc := c.isLt
  unfold operandBits
  omega

/-! The operand bits that each kind of row asks to be clear, by the operand bytes. -/

theorem operandBits_and_all (a b c : Byte) :
    operandBits a b c &&& 0xFFFFFF = 0 ↔ a = 0#8 ∧ b = 0#8 ∧ c = 0#8 := by
  rw [and_field_eq_zero_iff _ 24 0 (by decide), operandBits]
  bv_omega

theorem operandBits_and_color (a b c : Byte) : operandBits a b c &&& 0xFFFFF0 = 0 ↔
      a = 0#8 ∧ b = 0#8 ∧ c.extractLsb' 4 4 = 0#4 := by
  rw [and_field_eq_zero_iff _ 20 4 (by decide), operandBits, upperNibble_eq_zero_iff]
  bv_omega

theorem operandBits_and_ab (a b c : Byte) : operandBits a b c &&& 0xFFFF00 = 0 ↔ a = 0#8 ∧ b = 0#8 := by
  rw [and_field_eq_zero_iff _ 16 8 (by decide), operandBits]
  bv_omega

theorem operandBits_and_c (a b c : Byte) : operandBits a b c &&& 0xFF = 0 ↔ c = 0#8 := by
  rw [and_field_eq_zero_iff _ 8 0 (by decide), operandBits]
  bv_omega

/-- How many bytes of payload a header with `z` zero asks for (30_encoding.md R53). -/
def payloadOf (op : Nat) (a b : Byte) : Nat := if op = 4 then lenOf a b else 0

/-- A display header agrees with the row of its operation code. -/
theorem decodeHeader_agrees (op : Nat) (a b c : Byte) {rest : List Byte} (hrest : payloadOf op a b ≤ rest.length) :
    AgreesWith ((rowsOf displayRows 24 op).filter fun r => operandBits a b c &&& r.mask % 2 ^ 24 == 0)
      (rest.drop (payloadOf op a b)) (decodeHeader op a b c rest) := by
  unfold decodeHeader
  split
  case h_1 => exact agreesWith_ite (r := displayRows[0]) rfl (operandBits_and_all a b c) rest _ 24 rfl
  case h_2 => exact agreesWith_ite (r := displayRows[1]) rfl (operandBits_and_ab a b c) rest _ 24 rfl
  case h_3 => exact agreesWith_ite (r := displayRows[2]) rfl (operandBits_and_all a b c) rest _ 24 rfl
  case h_4 =>
    exact agreesWith_ok_of_mask (r := displayRows[3]) (i := .wrcell _ _ _) rfl (operandBits a b c) rest 24 rfl
  case h_5 =>
    have hlen : lenOf a b ≤ rest.length := hrest
    rw [payloadOperand, if_pos hlen]
    exact agreesWith_ite (r := displayRows[4]) rfl (operandBits_and_c a b c) (rest.drop (lenOf a b)) _ 24 rfl
  case h_6 => exact agreesWith_ite (r := displayRows[5]) rfl (operandBits_and_all a b c) rest _ 24 rfl
  case h_7 => exact agreesWith_ite (r := displayRows[6]) rfl (operandBits_and_all a b c) rest _ 24 rfl
  case h_8 => exact agreesWith_ite (r := displayRows[7]) rfl (operandBits_and_all a b c) rest _ 24 rfl
  case h_9 => exact agreesWith_ite (r := displayRows[8]) rfl (operandBits_and_all a b c) rest _ 24 rfl
  case h_10 => exact agreesWith_ite (r := displayRows[9]) rfl (operandBits_and_color a b c) rest _ 24 rfl
  case h_11 => exact agreesWith_ite (r := displayRows[10]) rfl (operandBits_and_color a b c) rest _ 24 rfl
  case h_12 => exact agreesWith_ite (r := displayRows[11]) rfl (operandBits_and_c a b c) rest _ 24 rfl
  case h_13 =>
    have hop : 12 ≤ op := by
      by_contra hlt
      interval_cases op <;> contradiction
    rw [rowsOf_reserved (n := 12) (by decide) hop]
    exact agreesWith_error _ _

/-- What a header with `z` zero asks for as payload, told from its word. -/
theorem payloadLength_eq_payloadOf {a b c h : Byte} (hz : zOf h = 0#4) :
    payloadLength (h.toNat * 2 ^ 24 + operandBits a b c) = payloadOf (opOf h).toNat a b := by
  have htop : h.toNat = (opOf h).toNat * 16 := by rw [toNat_eq_opOf_zOf h, hz]; rfl
  have hop := (opOf h).isLt
  have ha := a.isLt
  have hb := b.isLt
  have hc := c.isLt
  have hcode : (h.toNat * 2 ^ 24 + operandBits a b c) / 0x10000000 % 16 = (opOf h).toNat := by
    rw [htop, operandBits]
    omega
  have hlen : (h.toNat * 2 ^ 24 + operandBits a b c) / 0x100 % 0x10000 = lenOf a b := by
    rw [operandBits, lenOf]
    omega
  rw [payloadLength, hcode, hlen, payloadOf]

/-- The answer to a header and its payload agrees with the rows that select the header. -/
theorem decodeDisplay_agrees (a b c h : Byte) {rest : List Byte}
    (hrest : payloadLength (h.toNat * 2 ^ 24 + operandBits a b c) ≤ rest.length) :
    AgreesWith (displayRows.filter fun r => r.selects (h.toNat * 2 ^ 24 + operandBits a b c))
      (rest.drop (payloadLength (h.toNat * 2 ^ 24 + operandBits a b c)))
      (decodeDisplay (c :: b :: a :: h :: rest)) := by
  have hlow := operandBits_lt a b c
  by_cases hz : zOf h = 0#4
  · rw [payloadLength_eq_payloadOf hz] at hrest ⊢
    rw [filter_selects_of_z_zero topByteRows_displayRows hlow hz, decodeDisplay_of_z_zero hz]
    exact decodeHeader_agrees (opOf h).toNat a b c hrest
  · rw [filter_selects_of_z_ne_zero topByteRows_displayRows hlow hz, decodeDisplay, if_neg hz]
    exact agreesWith_error _ _

/-- A header's word is its top byte above its operand bits. -/
theorem bytesOfWord_operandBits (w : BitVec 32) :
    ∃ a b c h, bytesOfWord 4 w.toNat = [c, b, a, h] ∧ w.toNat = h.toNat * 2 ^ 24 + operandBits a b c := by
  have hlt := w.isLt
  refine ⟨_, _, _, _, rfl, ?_⟩
  simp only [operandBits, BitVec.toNat_ofNat]
  omega

/-- Settles O2: the header's four bytes are the bytes of its word. -/
theorem headerSelectsTableRow : Obligations.HeaderSelectsTableRow := by
  intro w rest hrest
  obtain ⟨a, b, c, h, hbytes, hw⟩ := bytesOfWord_operandBits w
  rw [hbytes]
  rw [hw] at hrest ⊢
  obtain ⟨hok, herror⟩ := decodeDisplay_agrees a b c h hrest
  split
  · next i rest' hd => exact hok i rest' hd
  · next e hd => exact herror e hd

/-! ### The descriptor table selects what decodes (30_encoding.md R54) -/

/-- The `arg` bits of a request, `Q[63:0]`. -/
def argBits (q0 q1 q2 q3 q4 q5 q6 q7 : Byte) : Nat :=
  q0.toNat + q1.toNat * 2 ^ 8 + q2.toNat * 2 ^ 16 + q3.toNat * 2 ^ 24 + q4.toNat * 2 ^ 32 + q5.toNat * 2 ^ 40 +
    q6.toNat * 2 ^ 48 + q7.toNat * 2 ^ 56

theorem argBits_lt (q0 q1 q2 q3 q4 q5 q6 q7 : Byte) : argBits q0 q1 q2 q3 q4 q5 q6 q7 < 2 ^ 64 := by
  have h0 := q0.isLt
  have h1 := q1.isLt
  have h2 := q2.isLt
  have h3 := q3.isLt
  have h4 := q4.isLt
  have h5 := q5.isLt
  have h6 := q6.isLt
  have h7 := q7.isLt
  unfold argBits
  omega

theorem argBits_and_all (q0 q1 q2 q3 q4 q5 q6 q7 : Byte) :
    argBits q0 q1 q2 q3 q4 q5 q6 q7 &&& 0xFFFFFFFFFFFFFFFF = 0 ↔
      q0 = 0#8 ∧ q1 = 0#8 ∧ q2 = 0#8 ∧ q3 = 0#8 ∧ q4 = 0#8 ∧ q5 = 0#8 ∧ q6 = 0#8 ∧ q7 = 0#8 := by
  have hlt := argBits_lt q0 q1 q2 q3 q4 q5 q6 q7
  rw [and_field_eq_zero_iff _ 64 0 (by decide), pow_zero, Nat.div_one, Nat.mod_eq_of_lt hlt]
  simp [argBits, ← BitVec.toNat_inj, and_assoc]

/-- The answer to a request agrees with the rows that select it. -/
theorem decodeRequest_agrees (q0 q1 q2 q3 q4 q5 q6 q7 h : Byte) (rest : List Byte) :
    AgreesWith (requestRows.filter fun r => r.selects (h.toNat * 2 ^ 64 + argBits q0 q1 q2 q3 q4 q5 q6 q7)) rest
      (decodeRequest (q0 :: q1 :: q2 :: q3 :: q4 :: q5 :: q6 :: q7 :: h :: rest)) := by
  have hlow := argBits_lt q0 q1 q2 q3 q4 q5 q6 q7
  by_cases hz : zOf h = 0#4
  · rw [filter_selects_of_z_zero topByteRows_requestRows hlow hz, decodeRequest, if_pos hz]
    split
    · next hfn =>
      rw [hfn]
      exact agreesWith_ite (r := requestRows[0]) rfl (argBits_and_all q0 q1 q2 q3 q4 q5 q6 q7) rest _ 64 rfl
    · next hfn =>
      rw [hfn]
      exact agreesWith_ok_of_mask (r := requestRows[1]) (i := .encode _ _ _ _) rfl _ rest 64 rfl
    · next hfn =>
      rw [hfn]
      exact agreesWith_ok_of_mask (r := requestRows[2]) (i := .tovalue _) rfl _ rest 64 rfl
    · next h0 h1 h2 =>
      have hfn : 3 ≤ (opOf h).toNat := by
        by_contra hlt
        interval_cases (opOf h).toNat <;> contradiction
      rw [rowsOf_reserved (n := 3) (by decide) hfn]
      exact agreesWith_error _ _
  · rw [filter_selects_of_z_ne_zero topByteRows_requestRows hlow hz, decodeRequest, if_neg hz]
    exact agreesWith_error _ _

/-- A request's word is its top byte above its `arg` bits. -/
theorem bytesOfWord_argBits (w : BitVec 72) :
    ∃ q0 q1 q2 q3 q4 q5 q6 q7 h, bytesOfWord 9 w.toNat = [q0, q1, q2, q3, q4, q5, q6, q7, h] ∧
      w.toNat = h.toNat * 2 ^ 64 + argBits q0 q1 q2 q3 q4 q5 q6 q7 := by
  have hlt := w.isLt
  refine ⟨_, _, _, _, _, _, _, _, _, rfl, ?_⟩
  simp only [argBits, BitVec.toNat_ofNat]
  omega

/-- Settles O3: the request's nine bytes are the bytes of its word. -/
theorem requestSelectsTableRow : Obligations.RequestSelectsTableRow := by
  intro w rest
  obtain ⟨q0, q1, q2, q3, q4, q5, q6, q7, h, hbytes, hw⟩ := bytesOfWord_argBits w
  rw [hbytes, hw]
  obtain ⟨hok, herror⟩ := decodeRequest_agrees q0 q1 q2 q3 q4 q5 q6 q7 h rest
  split
  · next i rest' hd => exact hok i rest' hd
  · next e hd => exact herror e hd

end Sys2Proof
